-- ==== Sys2Proof/Word.lean ====
section
/-! DEFINITION. The word types of the machine (00_scope.md R9): plain bit vectors, so that the
library's BitVec lemmas apply. Nothing else stands here. -/

namespace Sys2Proof

/-- A byte: 8 bits (R9). -/
abbrev Byte := BitVec 8

/-- A nibble: "4 bits (half a byte)" (R14); register numbers and the field `n` have this width. -/
abbrev Nibble := BitVec 4

/-- A 12-bit address: the width of the program counter, of `nnn` and of a stack entry (R24, R25, R72). -/
abbrev Addr := BitVec 12

/-- An instruction word, and the width of the index register `I` (R23, R70). -/
abbrev Word := BitVec 16

end Sys2Proof
end

