-- ==== Sys2Proof/Syntax.lean ====
section
/-! DEFINITION. The instructions (30_encoding.md R78, one constructor per row of the opcode table), the
six patterns (R73) and the operand fields (R72). An operand has exactly the width of its field, so only
the fields legal for a row exist in its constructor (R75). -/

namespace Sys2Proof

/-- The six bit layouts (R73). -/
inductive Pattern where
  | iiii
  | innn
  | ixii
  | ixkk
  | ixyi
  | ixyn
deriving DecidableEq, Repr

/-- The operand fields of an instruction word (R72). -/
inductive Field where
  | nnn
  | x
  | y
  | kk
  | n
deriving DecidableEq, Repr

/-- The 34 instructions of R78, in the table's order. Comments give template and effect. -/
inductive Instr where
  /-- `00E0` CLS: clear framebuffer. -/
  | cls
  /-- `00EE` RET: return from subroutine. -/
  | ret
  /-- `1nnn` JP: jump. -/
  | jp (nnn : Addr)
  /-- `2nnn` CALL: call subroutine. -/
  | call (nnn : Addr)
  /-- `Annn` LDI: load the index register. -/
  | ldi (nnn : Addr)
  /-- `Bnnn` JPV0: jump to nnn plus V0. -/
  | jpv0 (nnn : Addr)
  /-- `3xkk` SE_IMM: skip if Vx = kk. -/
  | seImm (x : Nibble) (kk : Byte)
  /-- `4xkk` SNE_IMM: skip if Vx differs from kk. -/
  | sneImm (x : Nibble) (kk : Byte)
  /-- `6xkk` LD_IMM: Vx = kk. -/
  | ldImm (x : Nibble) (kk : Byte)
  /-- `7xkk` ADD_IMM: Vx = Vx + kk, no carry. -/
  | addImm (x : Nibble) (kk : Byte)
  /-- `Cxkk` RND: Vx = random byte AND kk. -/
  | rnd (x : Nibble) (kk : Byte)
  /-- `5xy0` SE_REG: skip if Vx = Vy. -/
  | seReg (x y : Nibble)
  /-- `9xy0` SNE_REG: skip if Vx differs from Vy. -/
  | sneReg (x y : Nibble)
  /-- `8xy0` LD_REG: Vx = Vy. -/
  | ldReg (x y : Nibble)
  /-- `8xy1` OR. -/
  | orReg (x y : Nibble)
  /-- `8xy2` AND. -/
  | andReg (x y : Nibble)
  /-- `8xy3` XOR. -/
  | xorReg (x y : Nibble)
  /-- `8xy4` ADD_REG: add with carry out. -/
  | addReg (x y : Nibble)
  /-- `8xy5` SUB: Vx - Vy clamped at 0, no-borrow flag. -/
  | sub (x y : Nibble)
  /-- `8xy6` SHR: Vy shifted right into Vx. -/
  | shr (x y : Nibble)
  /-- `8xy7` SUBN: Vy - Vx clamped at 0, no-borrow flag. -/
  | subn (x y : Nibble)
  /-- `8xyE` SHL: Vy shifted left into Vx. -/
  | shl (x y : Nibble)
  /-- `Ex9E` SKP: skip if key Vx pressed. -/
  | skp (x : Nibble)
  /-- `ExA1` SKNP: skip if key Vx not pressed. -/
  | sknp (x : Nibble)
  /-- `Fx07` LD_VX_DT: Vx = delay. -/
  | ldVxDt (x : Nibble)
  /-- `Fx15` LD_DT_VX: delay = Vx. -/
  | ldDtVx (x : Nibble)
  /-- `Fx18` LD_ST_VX: sound = Vx. -/
  | ldStVx (x : Nibble)
  /-- `Fx0A` LD_VX_K: enter the key wait. -/
  | ldVxK (x : Nibble)
  /-- `Fx1E` ADD_I_VX: I = I + Vx. -/
  | addIVx (x : Nibble)
  /-- `Fx29` LD_F_VX: I = font sprite of digit Vx. -/
  | ldFVx (x : Nibble)
  /-- `Fx33` LD_B_VX: store BCD of Vx at I. -/
  | ldBVx (x : Nibble)
  /-- `Fx55` ST_REGS: store V0..Vx at I. -/
  | stRegs (x : Nibble)
  /-- `Fx65` LD_REGS: load V0..Vx from I. -/
  | ldRegs (x : Nibble)
  /-- `Dxyn` DRW: draw an n-row sprite. -/
  | drw (x y n : Nibble)
deriving DecidableEq, Repr

/-- The label of the instruction's row in the opcode table (R78, R85). -/
def Instr.mnemonic : Instr → String
  | .cls => "CLS"
  | .ret => "RET"
  | .jp _ => "JP"
  | .call _ => "CALL"
  | .ldi _ => "LDI"
  | .jpv0 _ => "JPV0"
  | .seImm _ _ => "SE_IMM"
  | .sneImm _ _ => "SNE_IMM"
  | .ldImm _ _ => "LD_IMM"
  | .addImm _ _ => "ADD_IMM"
  | .rnd _ _ => "RND"
  | .seReg _ _ => "SE_REG"
  | .sneReg _ _ => "SNE_REG"
  | .ldReg _ _ => "LD_REG"
  | .orReg _ _ => "OR"
  | .andReg _ _ => "AND"
  | .xorReg _ _ => "XOR"
  | .addReg _ _ => "ADD_REG"
  | .sub _ _ => "SUB"
  | .shr _ _ => "SHR"
  | .subn _ _ => "SUBN"
  | .shl _ _ => "SHL"
  | .skp _ => "SKP"
  | .sknp _ => "SKNP"
  | .ldVxDt _ => "LD_VX_DT"
  | .ldDtVx _ => "LD_DT_VX"
  | .ldStVx _ => "LD_ST_VX"
  | .ldVxK _ => "LD_VX_K"
  | .addIVx _ => "ADD_I_VX"
  | .ldFVx _ => "LD_F_VX"
  | .ldBVx _ => "LD_B_VX"
  | .stRegs _ => "ST_REGS"
  | .ldRegs _ => "LD_REGS"
  | .drw _ _ _ => "DRW"

/-- The pattern of the instruction's row (R73, R78). -/
def Instr.pattern : Instr → Pattern
  | .cls | .ret => .iiii
  | .jp _ | .call _ | .ldi _ | .jpv0 _ => .innn
  | .seImm _ _ | .sneImm _ _ | .ldImm _ _ | .addImm _ _ | .rnd _ _ => .ixkk
  | .seReg _ _ | .sneReg _ _ | .ldReg _ _ | .orReg _ _ | .andReg _ _ | .xorReg _ _ => .ixyi
  | .addReg _ _ | .sub _ _ | .shr _ _ | .subn _ _ | .shl _ _ => .ixyi
  | .skp _ | .sknp _ | .ldVxDt _ | .ldDtVx _ | .ldStVx _ | .ldVxK _ => .ixii
  | .addIVx _ | .ldFVx _ | .ldBVx _ | .stRegs _ | .ldRegs _ => .ixii
  | .drw _ _ _ => .ixyn

/-- The operand fields of an instruction with their values, as the numbers their bits spell (R76). -/
def Instr.fields : Instr → List (Field × Nat)
  | .cls | .ret => []
  | .jp a | .call a | .ldi a | .jpv0 a => [(.nnn, a.toNat)]
  | .seImm x k | .sneImm x k | .ldImm x k | .addImm x k | .rnd x k => [(.x, x.toNat), (.kk, k.toNat)]
  | .seReg x y | .sneReg x y | .ldReg x y | .orReg x y | .andReg x y | .xorReg x y =>
    [(.x, x.toNat), (.y, y.toNat)]
  | .addReg x y | .sub x y | .shr x y | .subn x y | .shl x y => [(.x, x.toNat), (.y, y.toNat)]
  | .skp x | .sknp x | .ldVxDt x | .ldDtVx x | .ldStVx x | .ldVxK x => [(.x, x.toNat)]
  | .addIVx x | .ldFVx x | .ldBVx x | .stRegs x | .ldRegs x => [(.x, x.toNat)]
  | .drw x y n => [(.x, x.toNat), (.y, y.toNat), (.n, n.toNat)]

end Sys2Proof
end

