-- ==== Sys2Proof/Machine/FaultKind.lean ====
section
/-! DEFINITION. The fault kinds of 60_exceptions.md R170 with the information each records: the
contents of the machine's fault record FAULT (10_state.md R31). They are data of the machine; the
reasons why a step of the model stops are in Machine/State.lean. -/

namespace Sys2Proof.Machine

/-- The sub-causes of a `MemoryBoundsViolation` (R170 row 5). -/
inductive BoundsCause where
  | fetch
  | dataRead
  | dataWrite
  | hostLoad
  | pcRange
deriving DecidableEq, Repr

/-- The construction parameter a `ConstructionError` names (R170 row 6). -/
inductive ParamName where
  | fbWidth
  | fbHeight
  | memSize
  | ipt
  | fps
  | timerRate
  | stackDepth
deriving DecidableEq, Repr

/-- A fault kind and its recorded information (R170), in the table's order. -/
inductive FaultRecord where
  /-- The top nibble of a decoded word has no registered pattern: raised by no word (R74, R172). -/
  | invalidInstruction (word : Word)
  /-- No row of R78 matches the word fetched at the address (R79, R173). -/
  | unhandledInstruction (word : Word) (address : Addr)
  /-- A field the pattern does not have was read or written: codec only (R75, R175). -/
  | fieldAccessViolation (field : Field) (pattern : Pattern)
  /-- A field setter received a value outside its bit width: codec only (R84, R175). -/
  | outOfRange (field : Field) (value : Nat)
  /-- A range of addresses outside memory, or a program counter above 0xFFF (R51, R82, R174). -/
  | memoryBoundsViolation (cause : BoundsCause) (address : Nat) (length : Nat)
  /-- A construction parameter out of its range: `Reset` only (R7). -/
  | constructionError (param : ParamName)
  /-- `00EE` on an empty stack (R25, R101). -/
  | stackUnderflow
  /-- `2nnn` on a full stack (R25, R106). -/
  | stackOverflow
  /-- `Ex9E` or `ExA1` with a register value above 15 (R149). -/
  | keyIndexOutOfRange (index : Byte)
deriving DecidableEq, Repr

end Sys2Proof.Machine
end

