-- ==== Sys2Proof/WellFormed.lean ====
section
/-! DEFINITION. When a choice of field values is a well-formed instruction: the fields are those of the
pattern (30_encoding.md R73, R75) and each value fits its bit width (R84). -/

namespace Sys2Proof

/-- Lowest bit of a field in the instruction word (R72). -/
def Field.lo : Field → Nat
  | .nnn => 0
  | .x => 8
  | .y => 4
  | .kk => 0
  | .n => 0

/-- Width of a field in bits (R72). -/
def Field.width : Field → Nat
  | .nnn => 12
  | .x => 4
  | .y => 4
  | .kk => 8
  | .n => 4

/-- The operand fields a pattern has: the column "Uses" of R73. -/
def Pattern.uses : Pattern → List Field
  | .iiii => []
  | .innn => [.nnn]
  | .ixii => [.x]
  | .ixkk => [.x, .kk]
  | .ixyi => [.x, .y]
  | .ixyn => [.x, .y, .n]

/-- The value fits the field: `nnn` at most 0xFFF, `x`, `y`, `n` at most 0xF, `kk` at most 0xFF (R84). -/
def Field.fits (f : Field) (v : Nat) : Bool := v < 2 ^ f.width

/-- A list of field values is well formed for a pattern: exactly the pattern's fields, each fitting. -/
def wellFormedFields (p : Pattern) (fs : List (Field × Nat)) : Bool :=
  fs.map Prod.fst == p.uses && fs.all (fun fv => fv.1.fits fv.2)

/-- An instruction is well formed when its fields are (R75, R84). The types of `Instr` make every
instruction so; the check itself can refuse a list of fields (Tests/Slice0.lean). -/
def Instr.wellFormed (i : Instr) : Bool := wellFormedFields i.pattern i.fields

end Sys2Proof
end

