-- ==== Sys2Proof/Decode.lean ====
section
/-! DEFINITION. The Instruction Codec (30_encoding.md): field extraction, the pattern table, decode,
the opcode map of R78 as data, and after them the encoder (R84). Decode is total: on any bytes it
answers an instruction or a rejection with a name. -/

namespace Sys2Proof

/-! ### Fields of a word (R72) -/

/-- Bits 15:12, "selects opcode family". -/
def typeNibble (w : Word) : Nibble := w.extractLsb' 12 4

/-- Bits 11:8. -/
def fieldX (w : Word) : Nibble := w.extractLsb' 8 4

/-- Bits 7:4. -/
def fieldY (w : Word) : Nibble := w.extractLsb' 4 4

/-- Bits 3:0, the field `n`; also the sub-opcode `sub4` of pattern IXYI. -/
def fieldN (w : Word) : Nibble := w.extractLsb' 0 4

/-- Bits 7:0, the field `kk`; also the sub-opcode `sub8` of pattern IXII. -/
def fieldKk (w : Word) : Byte := w.extractLsb' 0 8

/-- Bits 11:0, the field `nnn`; also the sub-opcode `sub12` of pattern IIII. -/
def fieldNnn (w : Word) : Addr := w.extractLsb' 0 12

/-- The word whose high byte is `hi` and low byte is `lo` (R53, R71). -/
def wordOfBytes (hi lo : Byte) : Word := (hi.setWidth 16 <<< 8) ||| lo.setWidth 16

/-- The high byte of a word, the one stored at the lower address (R53). -/
def highByte (w : Word) : Byte := w.extractLsb' 8 8

/-- The low byte of a word. -/
def lowByte (w : Word) : Byte := w.extractLsb' 0 8

/-! ### Patterns and field access (R73, R74, R75, R84) -/

/-- The pattern registered for a top nibble (R73). All sixteen are registered (R74); a `none` here
would be the fault `InvalidInstruction`. -/
def patternOf (t : Nibble) : Option Pattern :=
  match t.toNat with
  | 0x0 => some .iiii
  | 0x1 | 0x2 | 0xA | 0xB => some .innn
  | 0xE | 0xF => some .ixii
  | 0x3 | 0x4 | 0x6 | 0x7 | 0xC => some .ixkk
  | 0x5 | 0x8 | 0x9 => some .ixyi
  | 0xD => some .ixyn
  | _ => none

/-- The bits of a word at a field's position, whatever its pattern. -/
def Field.extract (f : Field) (w : Word) : Nat := (w.toNat / 2 ^ f.lo) % 2 ^ f.width

/-- The Codec's field accessor: the field's value, or `FieldAccessViolation` where the word's pattern
does not have it (R75). -/
def readField (w : Word) (f : Field) : Except Machine.FaultRecord Nat :=
  match patternOf (typeNibble w) with
  | none => .error (.invalidInstruction w)
  | some p => if f ∈ p.uses then .ok (f.extract w) else .error (.fieldAccessViolation f p)

/-- The Codec's field setter: refuses a field the pattern does not have (R75) and a value that does not
fit (`OutOfRange`, R84); otherwise the word with that field replaced. Where the field is foreign and the
value does not fit, R75 and R84 give no order; that `FieldAccessViolation` is the kind reported is the
model's choice (DESIGN CHOICE, log entry 31). -/
def writeField (w : Word) (f : Field) (v : Nat) : Except Machine.FaultRecord Word :=
  match patternOf (typeNibble w) with
  | none => .error (.invalidInstruction w)
  | some p =>
    if f ∈ p.uses then
      if f.fits v then .ok (BitVec.ofNat 16 (w.toNat - f.extract w * 2 ^ f.lo + v * 2 ^ f.lo))
      else .error (.outOfRange f v)
    else .error (.fieldAccessViolation f p)

/-! ### The opcode map as data (R78) -/

/-- One row of R78: a word `w` selects the row when `w AND mask = pattern`. -/
structure OpcodeRow where
  mnemonic : String
  pattern : Word
  mask : Word
deriving DecidableEq, Repr

/-- Rows 1 to 11 of R78. -/
def opcodeRowsAddress : List OpcodeRow :=
  [ ⟨"CLS", 0x00E0#16, 0xFFFF#16⟩, ⟨"RET", 0x00EE#16, 0xFFFF#16⟩
  , ⟨"JP", 0x1000#16, 0xF000#16⟩, ⟨"CALL", 0x2000#16, 0xF000#16⟩
  , ⟨"LDI", 0xA000#16, 0xF000#16⟩, ⟨"JPV0", 0xB000#16, 0xF000#16⟩
  , ⟨"SE_IMM", 0x3000#16, 0xF000#16⟩, ⟨"SNE_IMM", 0x4000#16, 0xF000#16⟩
  , ⟨"LD_IMM", 0x6000#16, 0xF000#16⟩, ⟨"ADD_IMM", 0x7000#16, 0xF000#16⟩
  , ⟨"RND", 0xC000#16, 0xF000#16⟩ ]

/-- Rows 12 to 22 of R78. -/
def opcodeRowsRegister : List OpcodeRow :=
  [ ⟨"SE_REG", 0x5000#16, 0xF00F#16⟩, ⟨"SNE_REG", 0x9000#16, 0xF00F#16⟩
  , ⟨"LD_REG", 0x8000#16, 0xF00F#16⟩, ⟨"OR", 0x8001#16, 0xF00F#16⟩
  , ⟨"AND", 0x8002#16, 0xF00F#16⟩, ⟨"XOR", 0x8003#16, 0xF00F#16⟩
  , ⟨"ADD_REG", 0x8004#16, 0xF00F#16⟩, ⟨"SUB", 0x8005#16, 0xF00F#16⟩
  , ⟨"SHR", 0x8006#16, 0xF00F#16⟩, ⟨"SUBN", 0x8007#16, 0xF00F#16⟩
  , ⟨"SHL", 0x800E#16, 0xF00F#16⟩ ]

/-- Rows 23 to 34 of R78. -/
def opcodeRowsSystem : List OpcodeRow :=
  [ ⟨"SKP", 0xE09E#16, 0xF0FF#16⟩, ⟨"SKNP", 0xE0A1#16, 0xF0FF#16⟩
  , ⟨"LD_VX_DT", 0xF007#16, 0xF0FF#16⟩, ⟨"LD_DT_VX", 0xF015#16, 0xF0FF#16⟩
  , ⟨"LD_ST_VX", 0xF018#16, 0xF0FF#16⟩, ⟨"LD_VX_K", 0xF00A#16, 0xF0FF#16⟩
  , ⟨"ADD_I_VX", 0xF01E#16, 0xF0FF#16⟩, ⟨"LD_F_VX", 0xF029#16, 0xF0FF#16⟩
  , ⟨"LD_B_VX", 0xF033#16, 0xF0FF#16⟩, ⟨"ST_REGS", 0xF055#16, 0xF0FF#16⟩
  , ⟨"LD_REGS", 0xF065#16, 0xF0FF#16⟩, ⟨"DRW", 0xD000#16, 0xF000#16⟩ ]

/-- The complete opcode map (R78). -/
def opcodeRows : List OpcodeRow := opcodeRowsAddress ++ opcodeRowsRegister ++ opcodeRowsSystem

/-- The word selects the row. -/
def OpcodeRow.selects (r : OpcodeRow) (w : Word) : Bool := w &&& r.mask == r.pattern

/-! ### Decode (R74, R77) -/

/-- Pattern IIII: the whole low 12 bits identify the instruction (R77, D3). -/
def decodeIiii (sub12 : Addr) : Option Instr :=
  if sub12 = 0x0E0#12 then some .cls
  else if sub12 = 0x0EE#12 then some .ret
  else none

/-- The `0x8` family of pattern IXYI, by `sub4`. -/
def decodeAlu (x y sub4 : Nibble) : Option Instr :=
  match sub4.toNat with
  | 0x0 => some (.ldReg x y)
  | 0x1 => some (.orReg x y)
  | 0x2 => some (.andReg x y)
  | 0x3 => some (.xorReg x y)
  | 0x4 => some (.addReg x y)
  | 0x5 => some (.sub x y)
  | 0x6 => some (.shr x y)
  | 0x7 => some (.subn x y)
  | 0xE => some (.shl x y)
  | _ => none

/-- The `0xE` family of pattern IXII, by `sub8`. -/
def decodeKey (x : Nibble) (sub8 : Byte) : Option Instr :=
  if sub8 = 0x9E#8 then some (.skp x)
  else if sub8 = 0xA1#8 then some (.sknp x)
  else none

/-- The `0xF` family of pattern IXII, by `sub8`. -/
def decodeMisc (x : Nibble) (sub8 : Byte) : Option Instr :=
  if sub8 = 0x07#8 then some (.ldVxDt x)
  else if sub8 = 0x15#8 then some (.ldDtVx x)
  else if sub8 = 0x18#8 then some (.ldStVx x)
  else if sub8 = 0x0A#8 then some (.ldVxK x)
  else if sub8 = 0x1E#8 then some (.addIVx x)
  else if sub8 = 0x29#8 then some (.ldFVx x)
  else if sub8 = 0x33#8 then some (.ldBVx x)
  else if sub8 = 0x55#8 then some (.stRegs x)
  else if sub8 = 0x65#8 then some (.ldRegs x)
  else none

/-- The instruction a word stands for, `none` where no row of R78 matches it (R79). -/
def decodeWord (w : Word) : Option Instr :=
  match (typeNibble w).toNat with
  | 0x0 => decodeIiii (fieldNnn w)
  | 0x1 => some (.jp (fieldNnn w))
  | 0x2 => some (.call (fieldNnn w))
  | 0x3 => some (.seImm (fieldX w) (fieldKk w))
  | 0x4 => some (.sneImm (fieldX w) (fieldKk w))
  | 0x5 => if fieldN w = 0#4 then some (.seReg (fieldX w) (fieldY w)) else none
  | 0x6 => some (.ldImm (fieldX w) (fieldKk w))
  | 0x7 => some (.addImm (fieldX w) (fieldKk w))
  | 0x8 => decodeAlu (fieldX w) (fieldY w) (fieldN w)
  | 0x9 => if fieldN w = 0#4 then some (.sneReg (fieldX w) (fieldY w)) else none
  | 0xA => some (.ldi (fieldNnn w))
  | 0xB => some (.jpv0 (fieldNnn w))
  | 0xC => some (.rnd (fieldX w) (fieldKk w))
  | 0xD => some (.drw (fieldX w) (fieldY w) (fieldN w))
  | 0xE => decodeKey (fieldX w) (fieldKk w)
  | 0xF => decodeMisc (fieldX w) (fieldKk w)
  | _ => none

/-- Why a list of bytes is no instruction. -/
inductive DecodeError where
  /-- Fewer than two bytes are left. -/
  | truncated
  /-- The word matches no row of R78 (R79). -/
  | unhandled (word : Word)
deriving DecidableEq, Repr

/-- Decode at the head of a list of bytes: the instruction and the bytes after it. Every instruction
is two bytes, high byte first (R70, R71). -/
def decode (bytes : List Byte) : Except DecodeError (Instr × List Byte) :=
  match bytes with
  | hi :: lo :: rest =>
    match decodeWord (wordOfBytes hi lo) with
    | some i => .ok (i, rest)
    | none => .error (.unhandled (wordOfBytes hi lo))
  | _ => .error .truncated

/-! ### The encoder (R84) -/

/-- A field value at the position of `x`, bits 11:8 (R72). -/
def placeX (x : Nibble) : Word := x.setWidth 16 <<< 8

/-- A field value at the position of `y`, bits 7:4. -/
def placeY (y : Nibble) : Word := y.setWidth 16 <<< 4

/-- A field value at the position of `n`, bits 3:0. -/
def placeN (n : Nibble) : Word := n.setWidth 16

/-- A field value at the position of `kk`, bits 7:0. -/
def placeKk (kk : Byte) : Word := kk.setWidth 16

/-- A field value at the position of `nnn`, bits 11:0. -/
def placeNnn (nnn : Addr) : Word := nnn.setWidth 16

/-- The word of an instruction: the row's match bits with the field values at the positions of R72. -/
def encode (i : Instr) : Word :=
  match i with
  | .cls => 0x00E0#16
  | .ret => 0x00EE#16
  | .jp nnn => 0x1000#16 ||| placeNnn nnn
  | .call nnn => 0x2000#16 ||| placeNnn nnn
  | .ldi nnn => 0xA000#16 ||| placeNnn nnn
  | .jpv0 nnn => 0xB000#16 ||| placeNnn nnn
  | .seImm x kk => 0x3000#16 ||| placeX x ||| placeKk kk
  | .sneImm x kk => 0x4000#16 ||| placeX x ||| placeKk kk
  | .ldImm x kk => 0x6000#16 ||| placeX x ||| placeKk kk
  | .addImm x kk => 0x7000#16 ||| placeX x ||| placeKk kk
  | .rnd x kk => 0xC000#16 ||| placeX x ||| placeKk kk
  | .seReg x y => 0x5000#16 ||| placeX x ||| placeY y
  | .sneReg x y => 0x9000#16 ||| placeX x ||| placeY y
  | .ldReg x y => 0x8000#16 ||| placeX x ||| placeY y
  | .orReg x y => 0x8001#16 ||| placeX x ||| placeY y
  | .andReg x y => 0x8002#16 ||| placeX x ||| placeY y
  | .xorReg x y => 0x8003#16 ||| placeX x ||| placeY y
  | .addReg x y => 0x8004#16 ||| placeX x ||| placeY y
  | .sub x y => 0x8005#16 ||| placeX x ||| placeY y
  | .shr x y => 0x8006#16 ||| placeX x ||| placeY y
  | .subn x y => 0x8007#16 ||| placeX x ||| placeY y
  | .shl x y => 0x800E#16 ||| placeX x ||| placeY y
  | .skp x => 0xE09E#16 ||| placeX x
  | .sknp x => 0xE0A1#16 ||| placeX x
  | .ldVxDt x => 0xF007#16 ||| placeX x
  | .ldDtVx x => 0xF015#16 ||| placeX x
  | .ldStVx x => 0xF018#16 ||| placeX x
  | .ldVxK x => 0xF00A#16 ||| placeX x
  | .addIVx x => 0xF01E#16 ||| placeX x
  | .ldFVx x => 0xF029#16 ||| placeX x
  | .ldBVx x => 0xF033#16 ||| placeX x
  | .stRegs x => 0xF055#16 ||| placeX x
  | .ldRegs x => 0xF065#16 ||| placeX x
  | .drw x y n => 0xD000#16 ||| placeX x ||| placeY y ||| placeN n

/-- The two bytes of an instruction as packing writes them, high byte first (R84). -/
def encodeBytes (i : Instr) : List Byte := [highByte (encode i), lowByte (encode i)]

/-- The instruction the decoder reads from the word `w` of spec/opcode_table.json's numbering: the one
16-bit word is laid out as the hardware stores it, high byte first. -/
def decodeTableWord (nbits w : Nat) : Option Instr :=
  let word : Word := BitVec.ofNat 16 (w % 2 ^ nbits)
  match decode [highByte word, lowByte word] with
  | .ok (i, _) => some i
  | .error _ => none

end Sys2Proof
end

