-- ==== Sys2Proof/Config.lean ====
section
/-! DEFINITION. What a construction of the machine fixes (00_scope.md R6) and the free values the spec
leaves open. The construction parameters are plain data carried in State (log entry 1), so a statement
about every state is a statement about every legal choice of them. The free values are constants
without a body: no proof can learn what they are. -/

namespace Sys2Proof

/-- The construction parameters of rule R6 that some rule of the core can read or that the spec lists
beside them. Times are natural numbers of quanta (92_eei_decisions.md D11, log entry 3). -/
structure Params where
  /-- `MEM_SIZE`: bytes of memory. -/
  memSize : Nat
  /-- `PC_RESET`: initial program counter, also the ROM load address. -/
  pcReset : Addr
  /-- `FB_W`: framebuffer width in pixels. -/
  fbWidth : Nat
  /-- `FB_H`: framebuffer height in pixels. -/
  fbHeight : Nat
  /-- `WRAP`: coordinate wraparound. -/
  wrap : Bool
  /-- `FONT_BASE`: address where the digit font is copied at construction. -/
  fontBase : Nat
  /-- `FONT_DATA`: sixteen byte sequences, digit 0 to digit F. -/
  fontData : Vector (List Byte) 16
  /-- `IPT`: instructions executed per Tick. -/
  ipt : Nat
  /-- `FPS`: frames per second; no rule of the core reads it (R6, 91_not_in_source.md N9). R6 says
  "positive number" and no kind of number: the natural number is the model's choice (DESIGN CHOICE,
  log entry 30). -/
  fps : Nat
  /-- `TH = 1/TIMER_RATE`, in quanta of time (R26, R182). -/
  threshold : Nat
  /-- `STACK_DEPTH`: capacity of the call stack, `none` for unbounded (R6, D8). -/
  stackDepth : Option Nat
deriving DecidableEq, Repr

namespace Config

/-- The free byte that the n-th draw of a run gives (`rand` of `Cxkk`, 42_ixkk_immediate.md R114, D18,
93_implementation_defined.md U1): nothing constrains it. Log entry 2. -/
opaque randomByte : Nat → Byte

/-- The free amount of time, in quanta, that the host reports at a Tick no pending input describes
(`dt`, 60_exceptions.md R180 and R198: the host's own choice, which the machine does not check).
Nothing constrains it. Log entry 4. -/
opaque freeDt : Nat → Nat

/-- The conventional glyphs of 93_implementation_defined.md U12, digits 0 to 7. -/
def glyphsLow : List (List Byte) :=
  [ [0xF0, 0x90, 0x90, 0x90, 0xF0], [0x20, 0x60, 0x20, 0x20, 0x70]
  , [0xF0, 0x10, 0xF0, 0x80, 0xF0], [0xF0, 0x10, 0xF0, 0x10, 0xF0]
  , [0x90, 0x90, 0xF0, 0x10, 0x10], [0xF0, 0x80, 0xF0, 0x10, 0xF0]
  , [0xF0, 0x80, 0xF0, 0x90, 0xF0], [0xF0, 0x10, 0x20, 0x40, 0x40] ]

/-- The conventional glyphs of 93_implementation_defined.md U12, digits 8 to F. -/
def glyphsHigh : List (List Byte) :=
  [ [0xF0, 0x90, 0xF0, 0x90, 0xF0], [0xF0, 0x90, 0xF0, 0x10, 0xF0]
  , [0xF0, 0x90, 0xF0, 0x90, 0x90], [0xE0, 0x90, 0xE0, 0x90, 0xE0]
  , [0xF0, 0x80, 0x80, 0x80, 0xF0], [0xE0, 0x90, 0x90, 0x90, 0xE0]
  , [0xF0, 0x80, 0xF0, 0x80, 0xF0], [0xF0, 0x80, 0xF0, 0x80, 0x80] ]

/-- The parameters `State.reset` is constructed with: those of 95_test_vectors.md, where the spec
states one set of values for its vectors. The rows R6 marks OPEN are the model's choice (log entry 5);
no statement about every state rests on them. One second is 36600 quanta, so that every time of
95_test_vectors.md part 3 is a whole number of quanta and `TH = 1/60` s is 610. -/
def defaultParams : Params where
  memSize := 4096
  pcReset := 0x200#12
  fbWidth := 64
  fbHeight := 32
  wrap := false
  fontBase := 0
  fontData := ⟨(glyphsLow ++ glyphsHigh).toArray, rfl⟩
  ipt := 1
  fps := 60
  threshold := 610
  stackDepth := none

end Config

end Sys2Proof
end

