-- ==== Sys2Proof/Machine/State.lean ====
section
/-! DEFINITION. The state of the machine, as plain data: everything 10_state.md lists, the construction
parameters (00_scope.md R6) and three fields of the model's own (`loadReport`, `inputs`, `draws`), with
the state after reset (10_state.md R38, 70_reset_and_hazards.md R210). -/

namespace Sys2Proof.Machine

/-- A countdown timer (R26): the 8-bit value and the accumulated time since the last decrement, in
quanta. -/
structure Timer where
  value : Byte
  elapsed : Nat
deriving DecidableEq, Repr

/-- The host events that move the machine (00_scope.md R12). Key numbers have 4 bits and times are
natural numbers, so the events 60_exceptions.md R186 and R180 leave without a meaning (a key outside
0 to 15, a negative `dt`) cannot be written (93_implementation_defined.md U17). The observers of R12
change nothing; they are functions of the state (Machine/Observe.lean). -/
inductive Event where
  /-- `Reset(params)`: construction (R210). -/
  | reset (params : Params)
  /-- `LoadMem(bytes, loc)` (R64). -/
  | loadMem (bytes : List Byte) (loc : Nat)
  /-- `Press(k)` (R186). -/
  | press (k : Nibble)
  /-- `Release(k)` (R186). -/
  | release (k : Nibble)
  /-- `Tick(dt)` (R180), `dt` in quanta. -/
  | tick (dt : Nat)
  /-- `Exec` issued by the host itself (R80, R192). -/
  | exec
deriving DecidableEq, Repr

/-- The reasons a step of the model stops with a fault. The faults of the instructions are NOT here:
they are recorded in the state (`State.fault`), and the step that raises one has a next state. -/
inductive Fault where
  /-- Raised by the event `Reset(params)` alone, where the parameters break 00_scope.md R7: the
  construction fails, and there is "no machine" (60_exceptions.md R191). Safe: nothing follows it. -/
  | constructionFailed (reason : FaultRecord)
deriving DecidableEq, Repr

/-- The reasons the model gives an input no meaning. -/
inductive Refusal where
  /-- Raised by a refused arm of exec, for an instruction without a meaning. No arm uses it. Safe. -/
  | notModelled (mnemonic : String)
  /-- Raised by the events `Exec` and `Tick` while a fault is recorded: they are not enabled until
  `Reset` (60_exceptions.md R171, R191). Carries the recorded fault. Safe: the spec gives no effect. -/
  | haltedByFault (record : FaultRecord)
  /-- Raised by a host's direct `Exec` while the machine waits for a key: "no meaning: a model refuses
  it" (60_exceptions.md R192). Safe: the spec gives no effect. -/
  | execWhileWaiting
deriving DecidableEq, Repr

/-- The machine's state. Rule numbers are those of 10_state.md unless another file is named. -/
structure State where
  /-- The construction parameters; only `Reset` sets them (00_scope.md R6, 20_memory.md R67). -/
  params : Params
  /-- The general registers V0 to VF (R20). -/
  v : Vector Byte 16
  /-- The index register I (R23). -/
  index : Word
  /-- The program counter (R24). -/
  pc : Addr
  /-- The call stack; the last element is the top (R25). -/
  stack : List Addr
  /-- The delay timer (R26). -/
  delay : Timer
  /-- The sound timer (R26). -/
  sound : Timer
  /-- The framebuffer: the rows from the top, each from its leftmost pixel; true is on (R27, R28). -/
  fb : List (List Bool)
  /-- The key flags, true for pressed (R29). -/
  keys : Vector Bool 16
  /-- WAIT, the key-wait flag (R30). -/
  wait : Bool
  /-- WREG, the register a key wait targets (R30). -/
  wreg : Nibble
  /-- FAULT, the fault record; sticky until `Reset` (R31). -/
  fault : Option FaultRecord
  /-- Memory: the cells that differ from the reset contents, in canonical form (R32, 20_memory.md R50). -/
  mem : List Host.Cell
  /-- The model's own: what the most recent `LoadMem` reported to the host (20_memory.md R64). -/
  loadReport : Option FaultRecord
  /-- The model's own: the host events to come, next one first (log entry 4). -/
  inputs : List Event
  /-- The model's own: how many free values the run has drawn (log entries 2 and 4). -/
  draws : Nat
deriving DecidableEq, Repr

/-- The state `Reset(params)` produces (R38, 70_reset_and_hazards.md R210): framebuffer off, pc at
`PC_RESET`, memory at its reset contents (nothing listed), everything else zero, empty, released and
not waiting. -/
def State.construct (p : Params) : State where
  params := p
  v := Vector.replicate 16 0#8
  index := 0#16
  pc := p.pcReset
  stack := []
  delay := ⟨0#8, 0⟩
  sound := ⟨0#8, 0⟩
  fb := List.replicate p.fbHeight (List.replicate p.fbWidth false)
  keys := Vector.replicate 16 false
  wait := false
  wreg := 0#4
  fault := none
  mem := []
  loadReport := none
  inputs := []
  draws := 0

/-- The machine right after reset, constructed with the parameters of 95_test_vectors.md (log entry 5). -/
def State.reset : State := State.construct Config.defaultParams

end Sys2Proof.Machine
end

