-- ==== Sys2Proof/Machine/Ops.lean ====
section
/-! DEFINITION. The named operations: memory in its canonical form and the reset contents of memory
(20_memory.md), the register accessors, raising a fault (60_exceptions.md R171), the writes of the
program counter (30_encoding.md R82), the call stack (10_state.md R25) and the fetch (30_encoding.md
R71). -/

namespace Sys2Proof

/-- `FONT_STRIDE`: "the longest of the 16 supplied digit byte-sequences" (00_scope.md R6,
70_reset_and_hazards.md R212). -/
def Params.fontStride (p : Params) : Nat := p.fontData.toList.foldl (fun m g => max m g.length) 0

/-- The byte at an address right after Reset: digit `d` of the font from `FONT_BASE + d*FONT_STRIDE` on,
0 everywhere else (R212, 10_state.md R38). This is what an unlisted address of memory reads as. -/
def Params.resetByte (p : Params) (a : Nat) : Byte :=
  if a < p.fontBase then 0#8
  else
    let d := (a - p.fontBase) / p.fontStride
    let j := (a - p.fontBase) % p.fontStride
    ((p.fontData.toList[d]?.getD [])[j]?).getD 0#8

/-- The premises of 00_scope.md R7 on the parameters, with the ranges of R6 a type does not give. The
answer is what a construction that fails reports, `none` where it succeeds. -/
def Params.check (p : Params) : Option Machine.FaultRecord :=
  if p.fbWidth = 0 then some (.constructionError .fbWidth)
  else if p.fbHeight = 0 then some (.constructionError .fbHeight)
  else if p.memSize < 2 ∨ 65536 < p.memSize then some (.constructionError .memSize)
  else if p.ipt = 0 then some (.constructionError .ipt)
  else if p.fps = 0 then some (.constructionError .fps)
  else if p.threshold = 0 then some (.constructionError .timerRate)
  else if p.stackDepth = some 0 then some (.constructionError .stackDepth)
  else
    match (List.range 16).find? fun d =>
      p.memSize < p.fontBase + d * p.fontStride + (p.fontData.toList[d]?.getD []).length with
    | some d =>
      some (.memoryBoundsViolation .hostLoad (p.fontBase + d * p.fontStride)
        (p.fontData.toList[d]?.getD []).length)
    | none => none

namespace Machine

/-- The outcome of an operation that may end the step. -/
abbrev Result := Host.Outcome State Fault Refusal

/-! ### Memory as data

A memory is a list of cells over the contents `d` an unlisted address reads as. -/

/-- The byte at an address. -/
def Memory.read (d : Nat → Byte) : List Host.Cell → Nat → Byte
  | [], a => d a
  | (k, c) :: m, a => if a = k then c else Memory.read d m a

/-- The memory with one byte replaced, in canonical form where the given one is. -/
def Memory.write (d : Nat → Byte) : List Host.Cell → Nat → Byte → List Host.Cell
  | [], a, b => if b = d a then [] else [(a, b)]
  | (k, c) :: m, a, b =>
    if a < k then (if b = d a then (k, c) :: m else (a, b) :: (k, c) :: m)
    else if a = k then (if b = d a then m else (a, b) :: m)
    else (k, c) :: Memory.write d m a b

/-- The memory with the bytes of a list stored from an address on, lowest address first (R51). -/
def Memory.writeList (d : Nat → Byte) (m : List Host.Cell) (a : Nat) : List Byte → List Host.Cell
  | [] => m
  | b :: bs => Memory.writeList d (Memory.write d m a b) (a + 1) bs

/-- The canonical form: addresses strictly rising, and no cell equal to what its address reads as
unlisted. -/
abbrev Memory.wf (d : Nat → Byte) (m : List Host.Cell) : Prop :=
  m.Pairwise (fun x y => x.1 < y.1) ∧ ∀ c ∈ m, c.2 ≠ d c.1

/-! ### Accessors -/

/-- `V[r]` (R20). -/
def State.reg (s : State) (r : Nibble) : Byte := s.v[r.toNat]

/-- `V[r] <- b` (R20). -/
def State.setReg (s : State) (r : Nibble) (b : Byte) : State := { s with v := s.v.set r.toNat b }

/-- `I <- a` (R23). -/
def State.setIndex (s : State) (a : Word) : State := { s with index := a }

/-- `KEY[k]` (R29). -/
def State.key (s : State) (k : Nibble) : Bool := s.keys[k.toNat]

/-- `KEY[k] <- b` (R29). -/
def State.setKey (s : State) (k : Nibble) (b : Bool) : State := { s with keys := s.keys.set k.toNat b }

/-- `DT <- b`, `elapsed` kept (R26, R39). -/
def State.setDelayValue (s : State) (b : Byte) : State :=
  { s with delay := { s.delay with value := b } }

/-- `ST <- b`, `elapsed` kept (R26, R39). -/
def State.setSoundValue (s : State) (b : Byte) : State :=
  { s with sound := { s.sound with value := b } }

/-- `WAIT <- 1`, `WREG <- r` (R30). -/
def State.enterWait (s : State) (r : Nibble) : State := { s with wait := true, wreg := r }

/-- The framebuffer replaced (R27). -/
def State.setFb (s : State) (fb : List (List Bool)) : State := { s with fb := fb }

/-- One free value drawn: the counter moves on, so that the next draw is another value. -/
def State.countDraw (s : State) : State := { s with draws := s.draws + 1 }

/-- `MEM[a]` (20_memory.md R50). -/
def State.byte (s : State) (a : Nat) : Byte := Memory.read s.params.resetByte s.mem a

/-- The bytes `v` stored from address `a` on, with no bounds check (used under one). -/
def State.storeBytes (s : State) (a : Nat) (v : List Byte) : State :=
  { s with mem := Memory.writeList s.params.resetByte s.mem a v }

/-! ### Memory primitives (20_memory.md R51) -/

/-- The range of `n` bytes at `a` lies outside memory: `a + n` on unbounded naturals. -/
def State.outside (s : State) (a n : Nat) : Bool := s.params.memSize < a + n

/-- `MemRead(a, n)`: the bytes, lowest address first, or `none` where it raises. -/
def State.memRead (s : State) (a n : Nat) : Option (List Byte) :=
  if s.outside a n then none else some ((List.range n).map fun j => s.byte (a + j))

/-- `MemWrite(a, n, v)` with `n` the length of `v`: the state with the bytes stored, or `none` where it
raises. The whole range is checked before any byte moves (R57). -/
def State.memWrite (s : State) (a : Nat) (v : List Byte) : Option State :=
  if s.outside a v.length then none else some (s.storeBytes a v)

/-! ### Raising a fault (60_exceptions.md R171, R178) -/

/-- `raise K(info)`: FAULT is written and nothing else; the step ends in that state. There is no
handler, no saved program counter and no mode change (R178). -/
def raise (r : FaultRecord) (s : State) : Result := .next { s with fault := some r }

/-! ### The program counter (30_encoding.md R82) -/

/-- Every write of pc: a value above 0xFFF raises `MemoryBoundsViolation(t, 2)` with sub-cause PcRange
and leaves pc alone. -/
def setPc (t : Nat) (s : State) : Result :=
  if 0xFFF < t then raise (.memoryBoundsViolation .pcRange t 2) s
  else .next { s with pc := BitVec.ofNat 12 t }

/-- `AdvancePc(k)`. -/
def advancePc (k : Nat) (s : State) : Result := setPc (s.pc.toNat + k) s

/-- The increment of a skip: 4 bytes where the condition holds, else 2 (R81). -/
def skipIf (cond : Bool) (s : State) : Result := advancePc (if cond then 4 else 2) s

/-! ### The call stack (10_state.md R25) -/

/-- The stack is at its capacity; never where it is unbounded. -/
def State.stackFull (s : State) : Bool := s.params.stackDepth == some s.stack.length

/-- `Push(a)`, `none` where it raises. -/
def State.push (s : State) (a : Addr) : Option State :=
  if s.stackFull then none else some { s with stack := s.stack ++ [a] }

/-- `Pop()`: the top and the state without it, `none` where it raises. -/
def State.pop (s : State) : Option (Addr × State) :=
  match s.stack.getLast? with
  | none => none
  | some a => some (a, { s with stack := s.stack.dropLast })

/-! ### Fetch (30_encoding.md R71) -/

/-- The word at pc, high byte first, or `none` where `pc + 2` exceeds memory. -/
def State.fetch (s : State) : Option Word :=
  if s.outside s.pc.toNat 2 then none
  else some (wordOfBytes (s.byte s.pc.toNat) (s.byte (s.pc.toNat + 1)))

end Machine

end Sys2Proof
end

