-- ==== Sys2Proof/Machine/Operands.lean ====
section
/-! DEFINITION. The operand forms of 30_encoding.md R76 and R86: immediates and registers as the unsigned
numbers their bits spell, and what the implicit operands V0, I, the font and the keys contribute. -/

namespace Sys2Proof.Machine

/-- `nnn` zero-extended to the 16 bits of I (41_innn_address.md R107). -/
def indexOfAddr (nnn : Addr) : Word := nnn.setWidth 16

/-- The target of `Bnnn`, `nnn + V[0]`, unbounded (41_innn_address.md R108). -/
def State.indexedTarget (s : State) (nnn : Addr) : Nat := nnn.toNat + (s.reg 0#4).toNat

/-- `(I + V[x]) mod 65536` (44_ixii_key_timer_index.md R146). -/
def State.indexPlus (s : State) (x : Nibble) : Word :=
  BitVec.ofNat 16 (s.index.toNat + (s.reg x).toNat)

/-- `(FONT_BASE + V[x]*FONT_STRIDE) mod 65536`, from the parameters and not from memory
(44_ixii_key_timer_index.md R147). -/
def State.fontAddress (s : State) (x : Nibble) : Word :=
  BitVec.ofNat 16 (s.params.fontBase + (s.reg x).toNat * s.params.fontStride)

/-- The key a key skip tests: the whole byte `V[x]`, `none` above 15 (44_ixii_key_timer_index.md R149). -/
def State.keyNumber (s : State) (x : Nibble) : Option Nibble :=
  if 15 < (s.reg x).toNat then none else some ((s.reg x).setWidth 4)

/-- The three decimal digits of a byte, hundreds first (44_ixii_key_timer_index.md R148). -/
def bcdDigits (b : Byte) : List Byte :=
  [ BitVec.ofNat 8 (b.toNat / 100), BitVec.ofNat 8 (b.toNat / 10 % 10), BitVec.ofNat 8 (b.toNat % 10) ]

/-- `V[0], ..., V[x]` (44_ixii_key_timer_index.md R150). -/
def State.firstRegs (s : State) (x : Nibble) : List Byte := s.v.toList.take (x.toNat + 1)

/-- The registers with the bytes of a list loaded into `V[j], V[j+1], ...`
(44_ixii_key_timer_index.md R151). -/
def loadFrom (v : Vector Byte 16) (j : Nat) : List Byte → Vector Byte 16
  | [] => v
  | b :: bs => loadFrom (v.setIfInBounds j b) (j + 1) bs

/-- `V[j] <- b[j]` for the bytes of a list, from `V[0]` on. -/
def State.loadRegs (s : State) (bytes : List Byte) : State := { s with v := loadFrom s.v 0 bytes }

end Sys2Proof.Machine
end

