-- ==== Sys2Proof/Machine/Address.lean ====
section
/-! DEFINITION. Pattern INNN (41_innn_address.md): jump, call, index load, indexed jump. -/

namespace Sys2Proof.Machine

/-- `1nnn` JP (R105). -/
def execJp (nnn : Addr) (s : State) : Result := setPc nnn.toNat s

/-- `2nnn` CALL (R106): pushes the call's own address. -/
def execCall (nnn : Addr) (s : State) : Result :=
  match s.push s.pc with
  | none => raise .stackOverflow s
  | some t => setPc nnn.toNat t

/-- `Annn` LDI (R107). -/
def execLdi (nnn : Addr) (s : State) : Result := advancePc 2 (s.setIndex (indexOfAddr nnn))

/-- `Bnnn` JPV0 (R108). -/
def execJpv0 (nnn : Addr) (s : State) : Result := setPc (s.indexedTarget nnn) s

end Sys2Proof.Machine
end

