-- ==== Sys2Proof/Machine/Flags.lean ====
section
/-! DEFINITION. The 8-bit ALU: results and the flag values that land in VF (10_state.md R22,
43_ixyi_alu.md R120). Each is computed on exact numbers and narrowed at the end. -/

namespace Sys2Proof.Machine

/-- A flag as VF holds it: 1 or 0 (R22). -/
def flagByte (f : Bool) : Byte := if f then 1#8 else 0#8

/-- `sum = a + b`, 0 to 510 (43_ixyi_alu.md R127). -/
def exactSum (a b : Byte) : Nat := a.toNat + b.toNat

/-- `sum mod 256`: the result of `8xy4`, and of `7xkk` (42_ixkk_immediate.md R113). -/
def addResult (a b : Byte) : Byte := BitVec.ofNat 8 (exactSum a b)

/-- The carry out of bit 7: `sum > 255`. -/
def addCarry (a b : Byte) : Bool := 255 < exactSum a b

/-- `diff = a - b` as a signed integer, -255 to 255 (43_ixyi_alu.md R128, R130). -/
def exactDiff (a b : Byte) : Int := (a.toNat : Int) - (b.toNat : Int)

/-- `max(diff, 0)`: "clamped, not wrapped" (43_ixyi_alu.md R128). -/
def subResult (a b : Byte) : Byte := BitVec.ofNat 8 (max (exactDiff a b) 0).toNat

/-- The no-borrow flag: `diff >= 0`. -/
def noBorrow (a b : Byte) : Bool := 0 ≤ exactDiff a b

/-- `b[7:1]`, the logical right shift by one (43_ixyi_alu.md R129). -/
def shrResult (b : Byte) : Byte := BitVec.ofNat 8 (b.toNat / 2)

/-- `b[0]`, the bit shifted out. -/
def shrOut (b : Byte) : Bool := b.toNat % 2 = 1

/-- `(2*b) mod 256`, the left shift by one (43_ixyi_alu.md R131). -/
def shlResult (b : Byte) : Byte := BitVec.ofNat 8 (2 * b.toNat)

/-- `b[7]`, the bit shifted out. -/
def shlOut (b : Byte) : Bool := b.toNat / 128 = 1

/-- `V[x] <- res`, then `V[15] <- flag`: the write order of `8xy4`, `8xy5` and `8xy7`, in which the flag
wins where x is 15 (43_ixyi_alu.md R133). -/
def State.resultThenFlag (s : State) (x : Nibble) (res : Byte) (flag : Bool) : State :=
  (s.setReg x res).setReg 15#4 (flagByte flag)

/-- `V[15] <- flag`, then `V[x] <- res`: the write order of `8xy6` and `8xyE`, in which the result wins
where x is 15 (43_ixyi_alu.md R133). -/
def State.flagThenResult (s : State) (x : Nibble) (res : Byte) (flag : Bool) : State :=
  (s.setReg 15#4 (flagByte flag)).setReg x res

end Sys2Proof.Machine
end

