-- ==== Sys2Proof/Machine/Alu.lean ====
section
/-! DEFINITION. Pattern IXYI (43_ixyi_alu.md): register-register skip and the 8-bit ALU. Both operands are
read before any register is written (R132). -/

namespace Sys2Proof.Machine

/-- `5xy0` SE_REG (R121). -/
def execSeReg (x y : Nibble) (s : State) : Result := skipIf (s.reg x == s.reg y) s

/-- `9xy0` SNE_REG (R122). -/
def execSneReg (x y : Nibble) (s : State) : Result := skipIf (s.reg x != s.reg y) s

/-- `8xy0` LD_REG (R123). -/
def execLdReg (x y : Nibble) (s : State) : Result := advancePc 2 (s.setReg x (s.reg y))

/-- `8xy1` OR (R124). -/
def execOrReg (x y : Nibble) (s : State) : Result := advancePc 2 (s.setReg x (s.reg x ||| s.reg y))

/-- `8xy2` AND (R125). -/
def execAndReg (x y : Nibble) (s : State) : Result := advancePc 2 (s.setReg x (s.reg x &&& s.reg y))

/-- `8xy3` XOR (R126). -/
def execXorReg (x y : Nibble) (s : State) : Result := advancePc 2 (s.setReg x (s.reg x ^^^ s.reg y))

/-- `8xy4` ADD_REG (R127): the carry is written last. -/
def execAddReg (x y : Nibble) (s : State) : Result :=
  advancePc 2 (s.resultThenFlag x (addResult (s.reg x) (s.reg y)) (addCarry (s.reg x) (s.reg y)))

/-- `8xy5` SUB (R128): clamped at 0, the no-borrow flag written last. -/
def execSub (x y : Nibble) (s : State) : Result :=
  advancePc 2 (s.resultThenFlag x (subResult (s.reg x) (s.reg y)) (noBorrow (s.reg x) (s.reg y)))

/-- `8xy6` SHR (R129): shifts `V[y]`; the result is written last. -/
def execShr (x y : Nibble) (s : State) : Result :=
  advancePc 2 (s.flagThenResult x (shrResult (s.reg y)) (shrOut (s.reg y)))

/-- `8xy7` SUBN (R130): the operands of SUB exchanged. -/
def execSubn (x y : Nibble) (s : State) : Result :=
  advancePc 2 (s.resultThenFlag x (subResult (s.reg y) (s.reg x)) (noBorrow (s.reg y) (s.reg x)))

/-- `8xyE` SHL (R131): shifts `V[y]`; the result is written last. -/
def execShl (x y : Nibble) (s : State) : Result :=
  advancePc 2 (s.flagThenResult x (shlResult (s.reg y)) (shlOut (s.reg y)))

end Sys2Proof.Machine
end

