-- ==== Sys2Proof/Machine/Framebuffer.lean ====
section
/-! DEFINITION. The framebuffer engine (45_ixyn_draw.md R160 to R163): coordinate normalisation, the XOR
of one pixel, the sprite blit with its collision signal, and the clear. -/

namespace Sys2Proof.Machine

/-- The pixel grid, rows from the top (10_state.md R28). -/
abbrev Frame := List (List Bool)

/-- `FB[y][x]`; off outside the grid. -/
def Frame.pixel (fb : Frame) (x y : Nat) : Bool := ((fb[y]?.getD [])[x]?).getD false

/-- The grid with the pixel at column `x`, row `y` toggled. -/
def Frame.toggle (fb : Frame) (x y : Nat) : Frame := fb.modify y fun row => row.modify x not

/-- `Norm(px, py)` (R160): wrapped, or the coordinate itself on the screen and nothing beside it. -/
def normCoord (p : Params) (px py : Nat) : Option (Nat × Nat) :=
  if p.wrap then some (px % p.fbWidth, py % p.fbHeight)
  else if px < p.fbWidth ∧ py < p.fbHeight then some (px, py)
  else none

/-- `XorPixel(px, py, value)` (R161): the grid after it and the switch-off signal. -/
def xorPixel (p : Params) (fb : Frame) (px py : Nat) (value : Bool) : Frame × Bool :=
  if value then
    match normCoord p px py with
    | none => (fb, false)
    | some (u, v) => (fb.toggle u v, fb.pixel u v)
  else (fb, false)

/-- One column of a sprite row: column `c` takes bit `7 - c` of the row's byte (R162). -/
def drawColumn (p : Params) (x0 py : Nat) (b : Byte) (acc : Frame × Bool) (c : Nat) : Frame × Bool :=
  let r := xorPixel p acc.1 (x0 + c) py (b.getLsbD (7 - c))
  (r.1, acc.2 || r.2)

/-- One row of a sprite: its eight columns in ascending order (R162). -/
def drawRow (p : Params) (x0 py : Nat) (b : Byte) (acc : Frame × Bool) : Frame × Bool :=
  (List.range 8).foldl (drawColumn p x0 py b) acc

/-- The rows of a sprite in ascending order, the first at row `py` (R162). -/
def drawRows (p : Params) (x0 py : Nat) : List Byte → Frame × Bool → Frame × Bool
  | [], acc => acc
  | b :: bs, acc => drawRows p x0 (py + 1) bs (drawRow p x0 py b acc)

/-- `DrawSprite(x0, y0, rows)` (R162): the grid after it and whether any call reported a switch-off. -/
def drawSprite (p : Params) (fb : Frame) (x0 y0 : Nat) (rows : List Byte) : Frame × Bool :=
  drawRows p x0 y0 rows (fb, false)

/-- `ClearScreen()` (R163): every pixel of the `FB_W` by `FB_H` grid off. -/
def clearedFrame (p : Params) : Frame := List.replicate p.fbHeight (List.replicate p.fbWidth false)

end Sys2Proof.Machine
end

