-- ==== Sys2Proof/Machine/Draw.lean ====
section
/-! DEFINITION. Pattern IXYN (45_ixyn_draw.md R164): the draw instruction. -/

namespace Sys2Proof.Machine

/-- The sprite rows of a draw: `n` bytes at I; with `n = 0` memory is not read and nothing can be
outside it (R164, 20_memory.md R51). -/
def State.spriteRows (s : State) (n : Nibble) : Option (List Byte) :=
  if n = 0#4 then some [] else s.memRead s.index.toNat n.toNat

/-- The sprite drawn at `(V[x], V[y])`, then VF set to the collision flag; the coordinates are read
before the flag is written (R164). -/
def State.drawAt (s : State) (x y : Nibble) (rows : List Byte) : State :=
  let r := drawSprite s.params s.fb (s.reg x).toNat (s.reg y).toNat rows
  (s.setFb r.1).setReg 15#4 (flagByte r.2)

/-- `Dxyn` DRW (R164). -/
def execDrw (x y n : Nibble) (s : State) : Result :=
  match s.spriteRows n with
  | none => raise (.memoryBoundsViolation .dataRead s.index.toNat n.toNat) s
  | some rows => advancePc 2 (s.drawAt x y rows)

end Sys2Proof.Machine
end

