-- ==== Sys2Proof/Machine/Immediate.lean ====
section
/-! DEFINITION. Pattern IXKK (42_ixkk_immediate.md): register-immediate skip, load, add, random. -/

namespace Sys2Proof.Machine

/-- `3xkk` SE_IMM (R110). -/
def execSeImm (x : Nibble) (kk : Byte) (s : State) : Result := skipIf (s.reg x == kk) s

/-- `4xkk` SNE_IMM (R111). -/
def execSneImm (x : Nibble) (kk : Byte) (s : State) : Result := skipIf (s.reg x != kk) s

/-- `6xkk` LD_IMM (R112). -/
def execLdImm (x : Nibble) (kk : Byte) (s : State) : Result := advancePc 2 (s.setReg x kk)

/-- `7xkk` ADD_IMM (R113): no flag. -/
def execAddImm (x : Nibble) (kk : Byte) (s : State) : Result :=
  advancePc 2 (s.setReg x (addResult (s.reg x) kk))

/-- `Cxkk` RND (R114): the draw is the free byte of this execution (log entry 2). -/
def execRnd (x : Nibble) (kk : Byte) (s : State) : Result :=
  advancePc 2 ((s.setReg x (Config.randomByte s.draws &&& kk)).countDraw)

end Sys2Proof.Machine
end

