-- ==== Sys2Proof/Machine/KeyTimer.lean ====
section
/-! DEFINITION. Pattern IXII (44_ixii_key_timer_index.md): key skips, timers, key wait, index register,
BCD and block transfers. -/

namespace Sys2Proof.Machine

/-- `Ex9E` SKP (R140): by the level of the key flag, which is not consumed. -/
def execSkp (x : Nibble) (s : State) : Result :=
  match s.keyNumber x with
  | none => raise (.keyIndexOutOfRange (s.reg x)) s
  | some k => skipIf (s.key k) s

/-- `ExA1` SKNP (R141). -/
def execSknp (x : Nibble) (s : State) : Result :=
  match s.keyNumber x with
  | none => raise (.keyIndexOutOfRange (s.reg x)) s
  | some k => skipIf (!s.key k) s

/-- `Fx07` LD_VX_DT (R142). -/
def execLdVxDt (x : Nibble) (s : State) : Result := advancePc 2 (s.setReg x s.delay.value)

/-- `Fx15` LD_DT_VX (R144): `elapsed` is not touched. -/
def execLdDtVx (x : Nibble) (s : State) : Result := advancePc 2 (s.setDelayValue (s.reg x))

/-- `Fx18` LD_ST_VX (R145): `elapsed` is not touched. -/
def execLdStVx (x : Nibble) (s : State) : Result := advancePc 2 (s.setSoundValue (s.reg x))

/-- `Fx0A` LD_VX_K (R143): enters the key wait; the scan inside a later Tick ends it (R188). -/
def execLdVxK (x : Nibble) (s : State) : Result := advancePc 2 (s.enterWait x)

/-- `Fx1E` ADD_I_VX (R146): no flag. -/
def execAddIVx (x : Nibble) (s : State) : Result := advancePc 2 (s.setIndex (s.indexPlus x))

/-- `Fx29` LD_F_VX (R147). -/
def execLdFVx (x : Nibble) (s : State) : Result := advancePc 2 (s.setIndex (s.fontAddress x))

/-- `Fx33` LD_B_VX (R148). -/
def execLdBVx (x : Nibble) (s : State) : Result :=
  match s.memWrite s.index.toNat (bcdDigits (s.reg x)) with
  | none => raise (.memoryBoundsViolation .dataWrite s.index.toNat 3) s
  | some t => advancePc 2 t

/-- `Fx55` ST_REGS (R150): I is not changed. -/
def execStRegs (x : Nibble) (s : State) : Result :=
  match s.memWrite s.index.toNat (s.firstRegs x) with
  | none => raise (.memoryBoundsViolation .dataWrite s.index.toNat (x.toNat + 1)) s
  | some t => advancePc 2 t

/-- `Fx65` LD_REGS (R151): I and memory are not changed. -/
def execLdRegs (x : Nibble) (s : State) : Result :=
  match s.memRead s.index.toNat (x.toNat + 1) with
  | none => raise (.memoryBoundsViolation .dataRead s.index.toNat (x.toNat + 1)) s
  | some bytes => advancePc 2 (s.loadRegs bytes)

end Sys2Proof.Machine
end

