-- ==== Sys2Proof/Machine/System.lean ====
section
/-! DEFINITION. Pattern IIII (40_iiii_system.md): screen clear and subroutine return. -/

namespace Sys2Proof.Machine

/-- `00E0` CLS (R100). -/
def execCls (s : State) : Result := advancePc 2 (s.setFb (clearedFrame s.params))

/-- `00EE` RET (R101): the popped address goes to pc before the advance by 2, so a return that runs off
the 12-bit range faults with the stack popped and pc at the popped address (R176). -/
def execRet (s : State) : Result :=
  match s.pop with
  | none => raise .stackUnderflow s
  | some (a, t) => advancePc 2 { t with pc := a }

end Sys2Proof.Machine
end

