-- ==== Sys2Proof/Machine/Events.lean ====
section
/-! DEFINITION. What each host event does (00_scope.md R12): construction, host loads, key events, the
execute step, the tick with its timers and its key scan (60_exceptions.md), and which event comes next. -/

namespace Sys2Proof.Machine

/-! ### Exec (30_encoding.md R80) -/

/-- Fetch, decode, dispatch: one instruction. A fetch outside memory and a word no row matches raise,
with nothing else changed (R71, R79). Whether Exec is enabled is the caller's question. -/
def execOne (s : State) : Result :=
  match s.fetch with
  | none => raise (.memoryBoundsViolation .fetch s.pc.toNat 2) s
  | some w =>
    match decodeWord w with
    | none => raise (.unhandledInstruction w s.pc) s
    | some i => exec i s

/-! ### The timers (60_exceptions.md R182) -/

/-- `TimerTick(T, dt)` with the threshold `TH`. -/
def timerTick (threshold : Nat) (t : Timer) (dt : Nat) : Timer :=
  let e := t.elapsed + dt
  if threshold ≤ e then
    { value := if 0 < t.value.toNat then t.value - 1#8 else t.value, elapsed := e - threshold }
  else { t with elapsed := e }

/-- Both timers advanced by `dt` (R180). -/
def State.advanceTimers (s : State) (dt : Nat) : State :=
  { s with
    delay := timerTick s.params.threshold s.delay dt
    sound := timerTick s.params.threshold s.sound dt }

/-! ### The key wait (60_exceptions.md R188) -/

/-- `ScanKeys()`: the lowest pressed key ends the wait and its number goes to `V[WREG]`. -/
def State.scanKeys (s : State) : State :=
  match s.keys.toList.findIdx? id with
  | none => s
  | some k => { s.setReg s.wreg (BitVec.ofNat 8 k) with wait := false }

/-! ### The tick (60_exceptions.md R180, R181) -/

/-- Up to `n` instructions: the loop stops early when one faults or enters a key wait (R181). -/
def execMany : Nat → State → Result
  | 0, s => .next s
  | n + 1, s =>
    match execOne s with
    | .next t => if t.fault.isSome || t.wait then .next t else execMany n t
    | .fault f => .fault f
    | .refused r => .refused r

/-- What precedes the instructions of a tick: the timers, then the scan while waiting (R180). -/
def State.beforeExec (s : State) (dt : Nat) : State :=
  let t := s.advanceTimers dt
  if t.wait then t.scanKeys else t

/-- `Tick(dt)` of an enabled machine: timers, scan, then `IPT` instructions unless it still waits. -/
def tick (dt : Nat) (s : State) : Result :=
  let t := s.beforeExec dt
  if t.wait then .next t else execMany t.params.ipt t

/-! ### Host loads and construction -/

/-- `LoadMem(bytes, loc)` (20_memory.md R64): a load outside memory writes nothing, is reported to the
host and does not set FAULT. -/
def State.loadMem (s : State) (bytes : List Byte) (loc : Nat) : State :=
  if s.outside loc bytes.length then
    { s with loadReport := some (.memoryBoundsViolation .hostLoad loc bytes.length) }
  else { s.storeBytes loc bytes with loadReport := none }

/-- `Reset(params)` (70_reset_and_hazards.md R210): the constructed state. What the host will do next and
how many free values the run has drawn are not the machine's and stay. -/
def construct (p : Params) (s : State) : Result :=
  match p.check with
  | some r => .fault (.constructionFailed r)
  | none => .next { State.construct p with inputs := s.inputs, draws := s.draws }

/-! ### Events -/

/-- `Tick(dt)`: not enabled while a fault is recorded (60_exceptions.md R171). -/
def tickEvent (dt : Nat) (s : State) : Result :=
  match s.fault with
  | some r => .refused (.haltedByFault r)
  | none => tick dt s

/-- `Exec` issued by the host: not enabled while a fault is recorded (R171), without a meaning while the
machine waits for a key (R192). -/
def execEvent (s : State) : Result :=
  match s.fault with
  | some r => .refused (.haltedByFault r)
  | none => if s.wait then .refused .execWhileWaiting else execOne s

/-- The effect of one event. -/
def handle (e : Event) (s : State) : Result :=
  match e with
  | .reset p => construct p s
  | .loadMem bytes loc => .next (s.loadMem bytes loc)
  | .press k => .next (s.setKey k true)
  | .release k => .next (s.setKey k false)
  | .tick dt => tickEvent dt s
  | .exec => execEvent s

/-- The next event, and the state with it taken: the first pending input, or a tick of the frame driver
after a free amount of time where none is pending (60_exceptions.md R198, log entry 4). -/
def State.nextEvent (s : State) : Event × State :=
  match s.inputs with
  | e :: rest => (e, { s with inputs := rest })
  | [] => (.tick (Config.freeDt s.draws), s.countDraw)

/-- The event, applied to the state with it taken. -/
def runNextEvent (s : State) : Result := handle s.nextEvent.1 s.nextEvent.2

/-- The state with a word stored at pc, high byte first, and a direct `Exec` as the next event, enabled:
what it takes for the very next step to run the word (log entry 6). Where pc + 2 exceeds memory no
instruction can be fetched, and nothing is stored. -/
def State.placeWord (s : State) (w : Word) : State :=
  { (s.memWrite s.pc.toNat [highByte w, lowByte w]).getD s with
    fault := none, wait := false, inputs := .exec :: s.inputs }

end Sys2Proof.Machine
end

