-- ==== Sys2Proof/Machine/Step.lean ====
section
/-! DEFINITION. The step: the machine "moves only when an event arrives" (00_scope.md R11), so one step is
one host event. -/

namespace Sys2Proof.Machine

/-- One event, run to its end. -/
def step : State → Host.Outcome State Fault Refusal := runNextEvent

/-- The state with the instruction of `w`, numbered as spec/opcode_table.json numbers its bits, placed so
that the very next step runs it; bits from `nbits` on are zero. -/
def State.withFetchWord (s : State) (nbits w : Nat) : State :=
  s.placeWord (BitVec.ofNat 16 (w % 2 ^ nbits))

end Sys2Proof.Machine
end

