-- ==== Sys2Proof/Machine/Observe.lean ====
section
/-! DEFINITION. The host's read-only events (00_scope.md R12): the pixel read port (45_ixyn_draw.md R165),
the key query (60_exceptions.md R186) and the snapshot (60_exceptions.md R196). They are functions of the
state, so none of them can change it. -/

namespace Sys2Proof.Machine

/-- `Pixel(px, py)`: 0 for every coordinate outside the grid, wrapping or not (R165). -/
def State.pixel (s : State) (px py : Nat) : Bool :=
  if px < s.params.fbWidth ∧ py < s.params.fbHeight then Frame.pixel s.fb px py else false

/-- `Pressed(k)` (R186). -/
def State.pressed (s : State) (k : Nibble) : Bool := s.key k

/-- What a snapshot shows (R196). -/
structure Snapshot where
  pc : Addr
  /-- "next raw instruction bytes", absent where `pc + 2` exceeds memory. -/
  nextBytes : Option (Byte × Byte)
  v : Vector Byte 16
  index : Word
  delayValue : Byte
  soundValue : Byte
  stack : List Addr
  keys : Vector Bool 16
deriving DecidableEq, Repr

/-- `Snapshot` (R196). -/
def State.snapshot (s : State) : Snapshot where
  pc := s.pc
  nextBytes :=
    if s.outside s.pc.toNat 2 then none else some (s.byte s.pc.toNat, s.byte (s.pc.toNat + 1))
  v := s.v
  index := s.index
  delayValue := s.delay.value
  soundValue := s.sound.value
  stack := s.stack
  keys := s.keys

end Sys2Proof.Machine
end

