-- ==== Sys2Proof/Safety.lean ====
section
/-! DEFINITION. The terms claims use: the invariant of the machine, the tables of what each instruction
may write (10_state.md R21, R39; 20_memory.md R52), and which pixels a sprite lands on. -/

namespace Sys2Proof

namespace Machine

/-! ### The invariant -/

/-- Memory is in canonical form and lists no address outside it (20_memory.md R50, R67). -/
abbrev State.memoryFits (s : State) : Prop :=
  Memory.wf s.params.resetByte s.mem ∧ ∀ c ∈ s.mem, c.1 < s.params.memSize

/-- A grid has the shape the parameters give it: `FB_H` rows of `FB_W` pixels (10_state.md R27, R28). -/
abbrev gridFits (p : Params) (fb : Frame) : Prop :=
  fb.length = p.fbHeight ∧ ∀ row ∈ fb, row.length = p.fbWidth

/-- The call stack is within its capacity (10_state.md R25). -/
abbrev State.stackFits (s : State) : Prop := ∀ d ∈ s.params.stackDepth, s.stack.length ≤ d

/-- What every event keeps: legal parameters, a canonical memory inside its bounds, a framebuffer of the
constructed size, a stack within its capacity, and the two accumulators of the timers equal
(60_exceptions.md R183 (g)). -/
structure State.Inv (s : State) : Prop where
  params : s.params.check = none
  memory : s.memoryFits
  grid : gridFits s.params s.fb
  stack : s.stackFits
  timers : s.delay.elapsed = s.sound.elapsed

end Machine

/-- The faults a program can cause: the rows of 60_exceptions.md R170 reachable from Exec, a
`MemoryBoundsViolation` with any sub-cause but that of a host load. -/
def Machine.FaultRecord.raisedByExec (r : Machine.FaultRecord) : Bool :=
  match r with
  | .unhandledInstruction _ _ => true
  | .memoryBoundsViolation c _ _ => c != .hostLoad
  | .stackUnderflow | .stackOverflow => true
  | .keyIndexOutOfRange _ => true
  | _ => false

/-! ### What an instruction may write -/

/-- The registers an instruction writes: the table of 10_state.md R21. -/
def Instr.writesReg (i : Instr) (r : Nibble) : Bool :=
  match i with
  | .ldImm x _ | .addImm x _ | .rnd x _ => r == x
  | .ldReg x _ | .orReg x _ | .andReg x _ | .xorReg x _ => r == x
  | .addReg x _ | .sub x _ | .shr x _ | .subn x _ | .shl x _ => r == x || r == 15#4
  | .ldVxDt x => r == x
  | .ldRegs x => r.toNat ≤ x.toNat
  | .drw _ _ _ => r == 15#4
  | _ => false

/-- The instructions that write the index register (10_state.md R23). -/
def Instr.writesIndex (i : Instr) : Bool :=
  match i with
  | .ldi _ | .addIVx _ | .ldFVx _ => true
  | _ => false

/-- The instructions that write the call stack: "Only `2nnn` pushes and only `00EE` pops" (10_state.md
R25). -/
def Instr.writesStack (i : Instr) : Bool :=
  match i with
  | .ret | .call _ => true
  | _ => false

/-- The instructions that write the framebuffer (10_state.md R27). -/
def Instr.writesFb (i : Instr) : Bool :=
  match i with
  | .cls | .drw _ _ _ => true
  | _ => false

/-- The instructions that store to memory, with where: the address and the number of bytes
(20_memory.md R52). The address is I as the meaning reads it. -/
def Instr.storeRange (i : Instr) (s : Machine.State) : Option (Nat × Nat) :=
  match i with
  | .ldBVx _ => some (s.index.toNat, 3)
  | .stRegs x => some (s.index.toNat, x.toNat + 1)
  | _ => none

/-- An instruction that ends by `AdvancePc`: every one but the return and the three that write pc
themselves (30_encoding.md R81). -/
def Instr.advances (i : Instr) : Bool :=
  match i with
  | .ret | .jp _ | .call _ | .jpv0 _ => false
  | _ => true

/-- The six instructions that add 4 to pc where their condition holds (30_encoding.md R81). -/
def Instr.skips (i : Instr) : Bool :=
  match i with
  | .seImm _ _ | .sneImm _ _ | .seReg _ _ | .sneReg _ _ | .skp _ | .sknp _ => true
  | _ => false

namespace Machine

/-! ### Ticks -/

/-- The next event of `s` is `Tick(dt)`, and `t` is `s` with that event taken: a pending input, or, where
none is pending, the frame driver's tick after a free amount of time (60_exceptions.md R198, log
entry 4). -/
abbrev State.tickTaken (s : State) (dt : Nat) (t : State) : Prop :=
  (∃ rest, s.inputs = .tick dt :: rest ∧ t = { s with inputs := rest }) ∨
  (s.inputs = [] ∧ dt = Config.freeDt s.draws ∧ t = { s with draws := s.draws + 1 })

/-! ### Sprites -/

/-- Bit `c` of row `r` of a sprite, bit 7 of the byte at column 0 (45_ixyn_draw.md R162). -/
def spriteBit (rows : List Byte) (r c : Nat) : Bool := (rows[r]?.getD 0#8).getLsbD (7 - c)

/-- A 1 bit of the sprite drawn at `(x0, y0)` lands on the pixel at column `u`, row `v`
(45_ixyn_draw.md R160, R162). -/
def spriteLands (p : Params) (x0 y0 : Nat) (rows : List Byte) (u v : Nat) : Bool :=
  (List.range rows.length).any fun r =>
    (List.range 8).any fun c =>
      spriteBit rows r c && (normCoord p (x0 + c) (y0 + r) == some (u, v))

/-- No two pixels of a sprite of that many rows normalise to the same place (45_ixyn_draw.md R166 (b)). -/
abbrev noOverlap (p : Params) (height : Nat) : Prop :=
  p.wrap = false ∨ (8 ≤ p.fbWidth ∧ height ≤ p.fbHeight)

end Machine

end Sys2Proof
end

