-- ==== Sys2Proof/Certificates/Slice0/Obligations.lean ====
section
/-! DEFINITION. The statements about the machine that the provers settle, in the order of
OBLIGATIONS.json. Where a clause follows a point the spec marks as its own decision, the docstring
names the decision (92_eei_decisions.md). -/

open Sys2Proof Sys2Proof.Machine

/-! ### Encoding (30_encoding.md) -/

/-- Every instruction, with every value of its operands, decodes from its own word and from its own two
bytes, whatever follows them (30_encoding.md sections 2, 4 and 6: R72, R78, R84). -/
def Obligations.DecodeOfEncodeIsTheInstruction : Prop :=
  ∀ (i : Instr) (rest : List Byte),
    decodeWord (encode i) = some i ∧ decode (encodeBytes i ++ rest) = .ok (i, rest)

/-- A word that decodes is the encoding of what it decodes to: no bit of a handled word is dropped
(30_encoding.md section 6, R84). -/
def Obligations.EncodeOfDecodeIsTheWord : Prop :=
  ∀ (w : Word) (i : Instr), decodeWord w = some i → encode i = w

/-- The opcode map has 34 rows, no word selects two of them, and the decoder gives a word exactly the
row that the map's match and mask give it, and none where no row matches (R78). -/
def Obligations.OpcodeMapDecidesDecoding : Prop :=
  opcodeRows.length = 34 ∧
  (∀ (w : Word) (r r' : OpcodeRow), r ∈ opcodeRows → r' ∈ opcodeRows →
    r.selects w = true → r'.selects w = true → r = r') ∧
  (∀ (w : Word) (r : OpcodeRow), r ∈ opcodeRows → r.selects w = true →
    ∃ i, decodeWord w = some i ∧ i.mnemonic = r.mnemonic) ∧
  (∀ (w : Word) (i : Instr), decodeWord w = some i →
    ∃ r ∈ opcodeRows, r.mnemonic = i.mnemonic ∧ r.selects w = true)

/-- Words of every pattern, written out from the encodings of 95_test_vectors.md 2.1, decode to the
instructions they stand for, and unhandled words are rejected by name. -/
def Obligations.SampleWordsDecode : Prop :=
  decode [0x00#8, 0xE0#8] = .ok (.cls, []) ∧
  decode [0x2A#8, 0xBC#8] = .ok (.call 0xABC#12, []) ∧
  decode [0x6A#8, 0x14#8] = .ok (.ldImm 0xA#4 0x14#8, []) ∧
  decode [0x8A#8, 0xB4#8] = .ok (.addReg 0xA#4 0xB#4, []) ∧
  decode [0xF5#8, 0x33#8] = .ok (.ldBVx 0x5#4, []) ∧
  decode [0xD1#8, 0x2F#8] = .ok (.drw 0x1#4 0x2#4 0xF#4, []) ∧
  decode [0x5A#8, 0xB1#8] = .error (.unhandled 0x5AB1#16) ∧
  decode [0xE1#8, 0xFF#8] = .error (.unhandled 0xE1FF#16)

/-- The Codec's field access (30_encoding.md R72, R74, R75, R84). The value of a field is the number its
bits spell, at the positions of R72. Every word has a pattern, so `InvalidInstruction` is never raised; a
field of the pattern reads, a field the pattern lacks is a `FieldAccessViolation`; a setter refuses a
value that does not fit with `OutOfRange`, and otherwise replaces that field and leaves every other bit of
the word alone, so the other fields of the pattern, the type nibble and the sub-opcodes `sub4` and `sub8`.
That a foreign field with a value too wide is reported as `FieldAccessViolation` is the model's choice
(log entry 31). -/
def Obligations.CodecReadsAndWritesFields : Prop :=
  (∀ w : Word,
    Field.nnn.extract w = (fieldNnn w).toNat ∧ fieldNnn w = w.extractLsb' 0 12 ∧
    Field.x.extract w = (fieldX w).toNat ∧ fieldX w = w.extractLsb' 8 4 ∧
    Field.y.extract w = (fieldY w).toNat ∧ fieldY w = w.extractLsb' 4 4 ∧
    Field.kk.extract w = (fieldKk w).toNat ∧ fieldKk w = w.extractLsb' 0 8 ∧
    Field.n.extract w = (fieldN w).toNat ∧ fieldN w = w.extractLsb' 0 4 ∧
    typeNibble w = w.extractLsb' 12 4) ∧
  ∀ (w : Word) (f : Field),
    ∃ p, patternOf (typeNibble w) = some p ∧
      (f ∈ p.uses → readField w f = .ok (f.extract w)) ∧
      (f ∉ p.uses → readField w f = .error (.fieldAccessViolation f p)) ∧
      ∀ v : Nat,
        (f ∉ p.uses → writeField w f v = .error (.fieldAccessViolation f p)) ∧
        (f ∈ p.uses → f.fits v = false → writeField w f v = .error (.outOfRange f v)) ∧
        (f ∈ p.uses → f.fits v = true →
          ∃ w', writeField w f v = .ok w' ∧ readField w' f = .ok v ∧ typeNibble w' = typeNibble w ∧
            (∀ g ∈ p.uses, g ≠ f → readField w' g = readField w g) ∧
            (p = .ixyi → fieldN w' = fieldN w) ∧
            (p = .ixii → fieldKk w' = fieldKk w) ∧
            ∀ k, (k < f.lo ∨ f.lo + f.width ≤ k) → w'.getLsbD k = w.getLsbD k)

/-! ### Fetch and the step (30_encoding.md R71, R80; 60_exceptions.md R180) -/

/-- Fetch reads the two bytes at pc, high byte first; where `pc + 2` exceeds memory the step raises
`MemoryBoundsViolation(pc, 2)` and nothing else happens (R71, 20_memory.md R53). -/
def Obligations.FetchReadsHighByteFirst : Prop :=
  ∀ s : State,
    (s.pc.toNat + 2 ≤ s.params.memSize →
      ∃ w : Word, s.fetch = some w ∧
        w.extractLsb' 8 8 = s.byte s.pc.toNat ∧ w.extractLsb' 0 8 = s.byte (s.pc.toNat + 1)) ∧
    (s.params.memSize < s.pc.toNat + 2 →
      execOne s = .next { s with fault := some (.memoryBoundsViolation .fetch s.pc.toNat 2) })

/-- A direct `Exec` of an enabled machine runs the instruction the bytes at pc decode to, and nothing
around it (R80). The taking of the event from the pending inputs is the model's own (log entry 4). -/
def Obligations.ExecRunsTheDecodedInstruction : Prop :=
  ∀ (s : State) (rest : List Event) (i : Instr),
    s.inputs = .exec :: rest → s.fault = none → s.wait = false →
    s.pc.toNat + 2 ≤ s.params.memSize →
    decodeWord (wordOfBytes (s.byte s.pc.toNat) (s.byte (s.pc.toNat + 1))) = some i →
    step s = exec i { s with inputs := rest }

/-- A `Tick(dt)` of an enabled, running machine with `IPT = 1` advances both timers by `dt` and then runs
the instruction the bytes at pc decode to (60_exceptions.md R180). That the timers come before the
instruction is the spec's decision D23 (log entry 22). A tick is the pending event, or what the model
takes where none is pending, after a free amount of time (log entry 4). -/
def Obligations.TickRunsTheDecodedInstruction : Prop :=
  ∀ (s s0 : State) (rest : List Event) (dt : Nat) (i : Instr),
    ((s.inputs = .tick dt :: rest ∧ s0 = { s with inputs := rest }) ∨
      (s.inputs = [] ∧ dt = Config.freeDt s.draws ∧ s0 = { s with draws := s.draws + 1 })) →
    s.fault = none → s.wait = false → s.params.ipt = 1 →
    s.pc.toNat + 2 ≤ s.params.memSize →
    decodeWord (wordOfBytes (s.byte s.pc.toNat) (s.byte (s.pc.toNat + 1))) = some i →
    step s = exec i { s0 with
      delay := timerTick s.params.threshold s.delay dt
      sound := timerTick s.params.threshold s.sound dt }

/-- A word no row matches raises `UnhandledInstruction(word, pc)`; nothing but FAULT changes and pc still
points at the word (30_encoding.md section 4, 60_exceptions.md section 1; the unchanged state is the
spec's decision D13). -/
def Obligations.UnhandledWordFaults : Prop :=
  ∀ (s : State) (w : Word), s.fetch = some w → decodeWord w = none →
    execOne s = .next { s with fault := some (.unhandledInstruction w s.pc) }

/-! ### Pattern IIII and INNN (40_iiii_system.md, 41_innn_address.md) -/

/-- `00E0` turns every pixel off (45_ixyn_draw.md R163), keeps the grid's shape and adds 2 to pc
(40_iiii_system.md R100). That nothing else changes, VF in particular, is the spec's decision D1 (log
entry 15). -/
def Obligations.ClearScreenTurnsEveryPixelOff : Prop :=
  ∀ s : State, s.pc.toNat + 2 ≤ 0xFFF →
    ∃ t, exec .cls s = .next t ∧ t = { s with fb := t.fb, pc := s.pc + 2#12 } ∧
      gridFits s.params t.fb ∧
      ∀ x y, x < s.params.fbWidth → y < s.params.fbHeight → t.pixel x y = false

/-- `00EE` pops the top of the stack and goes to the popped address plus 2 (the spec's decision D6). -/
def Obligations.ReturnGoesPastThePoppedAddress : Prop :=
  ∀ (s : State) (below : List Addr) (a : Addr),
    s.stack = below ++ [a] → a.toNat + 2 ≤ 0xFFF →
    exec .ret s = .next { s with stack := below, pc := a + 2#12 }

/-- `1nnn` goes to nnn and changes nothing else; every word with type nibble 1 is this instruction; a jump
to itself leaves the whole state alone (R105). -/
def Obligations.JumpGoesToItsTarget : Prop :=
  (∀ (s : State) (nnn : Addr), exec (.jp nnn) s = .next { s with pc := nnn }) ∧
  (∀ w : Word, typeNibble w = 0x1#4 → decodeWord w = some (.jp (w.extractLsb' 0 12))) ∧
  (∀ s : State, exec (.jp s.pc) s = .next s)

/-- `2nnn` on a stack with room pushes its own address (the spec's decision D6) and goes to nnn. -/
def Obligations.CallPushesItsOwnAddress : Prop :=
  ∀ (s : State) (nnn : Addr), s.params.stackDepth ≠ some s.stack.length →
    exec (.call nnn) s = .next { s with stack := s.stack ++ [s.pc], pc := nnn }

/-- After a call, a return from any state with the call's stack lands 2 past the call with the caller's
stack: what a program can observe of the pair (90_conflicts.md C4). -/
def Obligations.ReturnUndoesCall : Prop :=
  ∀ (s t u : State) (nnn : Addr), s.params.stackDepth ≠ some s.stack.length →
    s.pc.toNat + 2 ≤ 0xFFF → exec (.call nnn) s = .next t → u.stack = t.stack →
    exec .ret u = .next { u with stack := s.stack, pc := s.pc + 2#12 }

/-- `Annn` loads nnn, zero-extended, into I. -/
def Obligations.LoadIndexZeroExtends : Prop :=
  ∀ (s : State) (nnn : Addr), s.pc.toNat + 2 ≤ 0xFFF →
    exec (.ldi nnn) s = .next { s with index := nnn.setWidth 16, pc := s.pc + 2#12 }

/-- `Bnnn` goes to nnn plus V0 where that is a 12-bit value. -/
def Obligations.IndexedJumpAddsV0 : Prop :=
  ∀ (s : State) (nnn : Addr), nnn.toNat + (s.reg 0#4).toNat ≤ 0xFFF →
    exec (.jpv0 nnn) s = .next { s with pc := nnn + (s.reg 0#4).setWidth 12 }

/-! ### Pattern IXKK (42_ixkk_immediate.md) -/

/-- `3xkk` and `4xkk` add 4 or 2 to pc by comparing `V[x]` with kk, and change nothing else. -/
def Obligations.ImmediateSkips : Prop :=
  ∀ (s : State) (x : Nibble) (kk : Byte),
    (s.pc.toNat + (if s.reg x = kk then 4 else 2) ≤ 0xFFF →
      exec (.seImm x kk) s =
        .next { s with pc := s.pc + (if s.reg x = kk then 4#12 else 2#12) }) ∧
    (s.pc.toNat + (if s.reg x = kk then 2 else 4) ≤ 0xFFF →
      exec (.sneImm x kk) s =
        .next { s with pc := s.pc + (if s.reg x = kk then 2#12 else 4#12) })

/-- `6xkk` loads kk; `7xkk` adds kk modulo 256 and sets no flag. -/
def Obligations.ImmediateLoadAndAdd : Prop :=
  ∀ (s : State) (x : Nibble) (kk : Byte), s.pc.toNat + 2 ≤ 0xFFF →
    exec (.ldImm x kk) s = .next { s with v := s.v.set x.toNat kk, pc := s.pc + 2#12 } ∧
    exec (.addImm x kk) s = .next { s with
      v := s.v.set x.toNat (BitVec.ofNat 8 (((s.reg x).toNat + kk.toNat) % 256))
      pc := s.pc + 2#12 }

/-- `Cxkk` loads a free byte AND kk, so no bit outside kk is set, and `kk = 0` gives 0 whatever the
draw. The draw is the model's free value (log entry 2, the spec's decision D18). -/
def Obligations.RandomByteIsMasked : Prop :=
  ∀ (s : State) (x : Nibble) (kk : Byte), s.pc.toNat + 2 ≤ 0xFFF →
    ∃ t, exec (.rnd x kk) s = .next t ∧
      t = { s with
        v := s.v.set x.toNat (Config.randomByte s.draws &&& kk)
        draws := s.draws + 1
        pc := s.pc + 2#12 } ∧
      t.reg x &&& ~~~kk = 0#8 ∧ (kk = 0#8 → t.reg x = 0#8)

/-! ### Pattern IXYI (43_ixyi_alu.md) -/

/-- `5xy0` and `9xy0` add 4 or 2 to pc by comparing two registers, and change nothing else. -/
def Obligations.RegisterSkips : Prop :=
  ∀ (s : State) (x y : Nibble),
    (s.pc.toNat + (if s.reg x = s.reg y then 4 else 2) ≤ 0xFFF →
      exec (.seReg x y) s =
        .next { s with pc := s.pc + (if s.reg x = s.reg y then 4#12 else 2#12) }) ∧
    (s.pc.toNat + (if s.reg x = s.reg y then 2 else 4) ≤ 0xFFF →
      exec (.sneReg x y) s =
        .next { s with pc := s.pc + (if s.reg x = s.reg y then 2#12 else 4#12) })

/-- `8xy0` copies, `8xy1`, `8xy2`, `8xy3` combine bit by bit; none of them writes VF but as its
destination. -/
def Obligations.CopyAndLogic : Prop :=
  ∀ (s : State) (x y : Nibble), s.pc.toNat + 2 ≤ 0xFFF →
    exec (.ldReg x y) s = .next { s with v := s.v.set x.toNat (s.reg y), pc := s.pc + 2#12 } ∧
    exec (.orReg x y) s =
      .next { s with v := s.v.set x.toNat (s.reg x ||| s.reg y), pc := s.pc + 2#12 } ∧
    exec (.andReg x y) s =
      .next { s with v := s.v.set x.toNat (s.reg x &&& s.reg y), pc := s.pc + 2#12 } ∧
    exec (.xorReg x y) s =
      .next { s with v := s.v.set x.toNat (s.reg x ^^^ s.reg y), pc := s.pc + 2#12 }

/-- `8xy4` writes the sum modulo 256 to `V[x]` and then the carry to VF, which wins where x is 15. -/
def Obligations.AddWritesSumThenCarry : Prop :=
  ∀ (s : State) (x y : Nibble), s.pc.toNat + 2 ≤ 0xFFF →
    exec (.addReg x y) s = .next { s with
      v := (s.v.set x.toNat (BitVec.ofNat 8 (((s.reg x).toNat + (s.reg y).toNat) % 256))).set 15
        (if 255 < (s.reg x).toNat + (s.reg y).toNat then 1#8 else 0#8)
      pc := s.pc + 2#12 }

/-- `8xy5` and `8xy7` write the difference clamped at 0 and then the no-borrow flag to VF, which wins
where x is 15 (the write order is the spec's decision D2). -/
def Obligations.SubtractClampsThenFlags : Prop :=
  ∀ (s : State) (x y : Nibble), s.pc.toNat + 2 ≤ 0xFFF →
    exec (.sub x y) s = .next { s with
      v := (s.v.set x.toNat (if s.reg y ≤ s.reg x then s.reg x - s.reg y else 0#8)).set 15
        (if s.reg y ≤ s.reg x then 1#8 else 0#8)
      pc := s.pc + 2#12 } ∧
    exec (.subn x y) s = .next { s with
      v := (s.v.set x.toNat (if s.reg x ≤ s.reg y then s.reg y - s.reg x else 0#8)).set 15
        (if s.reg x ≤ s.reg y then 1#8 else 0#8)
      pc := s.pc + 2#12 }

/-- `8xy6` and `8xyE` shift `V[y]` by one: the bit shifted out goes to VF and then the result to `V[x]`,
which wins where x is 15 (the write order is the spec's decision D2). -/
def Obligations.ShiftsFlagThenResult : Prop :=
  ∀ (s : State) (x y : Nibble), s.pc.toNat + 2 ≤ 0xFFF →
    exec (.shr x y) s = .next { s with
      v := (s.v.set 15 (if (s.reg y).getLsbD 0 then 1#8 else 0#8)).set x.toNat (s.reg y >>> 1)
      pc := s.pc + 2#12 } ∧
    exec (.shl x y) s = .next { s with
      v := (s.v.set 15 (if (s.reg y).getLsbD 7 then 1#8 else 0#8)).set x.toNat (s.reg y <<< 1)
      pc := s.pc + 2#12 }

/-- The table of ALU laws, for x other than 15: result and VF of the seven instructions, over every pair
of register values (R120). -/
def Obligations.AluLaws : Prop :=
  ∀ (s : State) (x y : Nibble), x ≠ 15#4 → s.pc.toNat + 2 ≤ 0xFFF →
    (∃ t, exec (.orReg x y) s = .next t ∧ t.reg x = s.reg x ||| s.reg y ∧
      t.reg 15#4 = s.reg 15#4) ∧
    (∃ t, exec (.andReg x y) s = .next t ∧ t.reg x = s.reg x &&& s.reg y ∧
      t.reg 15#4 = s.reg 15#4) ∧
    (∃ t, exec (.xorReg x y) s = .next t ∧ t.reg x = s.reg x ^^^ s.reg y ∧
      t.reg 15#4 = s.reg 15#4) ∧
    (∃ t, exec (.addReg x y) s = .next t ∧
      (t.reg x).toNat = ((s.reg x).toNat + (s.reg y).toNat) % 256 ∧
      (t.reg 15#4).toNat = if 255 < (s.reg x).toNat + (s.reg y).toNat then 1 else 0) ∧
    (∃ t, exec (.sub x y) s = .next t ∧
      ((t.reg x).toNat : Int) = max ((s.reg x).toNat - (s.reg y).toNat : Int) 0 ∧
      (t.reg 15#4).toNat = if (s.reg y).toNat ≤ (s.reg x).toNat then 1 else 0) ∧
    (∃ t, exec (.subn x y) s = .next t ∧
      ((t.reg x).toNat : Int) = max ((s.reg y).toNat - (s.reg x).toNat : Int) 0 ∧
      (t.reg 15#4).toNat = if (s.reg x).toNat ≤ (s.reg y).toNat then 1 else 0) ∧
    (∃ t, exec (.shr x y) s = .next t ∧ (t.reg x).toNat = (s.reg y).toNat / 2 ∧
      (t.reg 15#4).toNat = (s.reg y).toNat % 2) ∧
    (∃ t, exec (.shl x y) s = .next t ∧ (t.reg x).toNat = (2 * (s.reg y).toNat) % 256 ∧
      (t.reg 15#4).toNat = (s.reg y).toNat / 128)

/-! ### Pattern IXII (44_ixii_key_timer_index.md) -/

/-- `Ex9E` and `ExA1` skip by the level of the key whose number is the value of `V[x]`, 0 to 15, and
change nothing else. -/
def Obligations.KeySkips : Prop :=
  ∀ (s : State) (x k : Nibble), (s.reg x).toNat = k.toNat →
    (s.pc.toNat + (if s.key k = true then 4 else 2) ≤ 0xFFF →
      exec (.skp x) s =
        .next { s with pc := s.pc + (if s.key k = true then 4#12 else 2#12) }) ∧
    (s.pc.toNat + (if s.key k = true then 2 else 4) ≤ 0xFFF →
      exec (.sknp x) s =
        .next { s with pc := s.pc + (if s.key k = true then 2#12 else 4#12) })

/-- `Fx07` reads the delay timer, `Fx15` and `Fx18` set a timer's value and leave its accumulator alone
(the spec's decision D12). -/
def Obligations.TimerInstructions : Prop :=
  ∀ (s : State) (x : Nibble), s.pc.toNat + 2 ≤ 0xFFF →
    exec (.ldVxDt x) s =
      .next { s with v := s.v.set x.toNat s.delay.value, pc := s.pc + 2#12 } ∧
    exec (.ldDtVx x) s =
      .next { s with delay := ⟨s.reg x, s.delay.elapsed⟩, pc := s.pc + 2#12 } ∧
    exec (.ldStVx x) s =
      .next { s with sound := ⟨s.reg x, s.sound.elapsed⟩, pc := s.pc + 2#12 }

/-- `Fx0A` enters the key wait for register x and advances pc at once (the spec's decision D7); it
neither looks at the keys nor writes a register. -/
def Obligations.KeyWaitIsEntered : Prop :=
  ∀ (s : State) (x : Nibble), s.pc.toNat + 2 ≤ 0xFFF →
    exec (.ldVxK x) s = .next { s with wait := true, wreg := x, pc := s.pc + 2#12 }

/-- `Fx1E` adds `V[x]` to I modulo 65536 (the spec's decision D5); `Fx29` points I at the font sprite of
the digit in `V[x]`, from the parameters. -/
def Obligations.IndexArithmetic : Prop :=
  ∀ (s : State) (x : Nibble), s.pc.toNat + 2 ≤ 0xFFF →
    exec (.addIVx x) s = .next { s with
      index := s.index + (s.reg x).setWidth 16
      pc := s.pc + 2#12 } ∧
    exec (.ldFVx x) s = .next { s with
      index := BitVec.ofNat 16 ((s.params.fontBase + (s.reg x).toNat * s.params.fontStride) % 65536)
      pc := s.pc + 2#12 }

/-- `Fx33` stores the hundreds, tens and ones of `V[x]` at I, I + 1 and I + 2, each a digit, and changes
no other byte and nothing else but pc. A canonical memory is part of the invariant
(StepKeepsTheInvariant). -/
def Obligations.BcdStoresThreeDigits : Prop :=
  ∀ (s : State) (x : Nibble), Memory.wf s.params.resetByte s.mem →
    s.index.toNat + 3 ≤ s.params.memSize → s.pc.toNat + 2 ≤ 0xFFF →
    ∃ t, exec (.ldBVx x) s = .next t ∧ t = { s with mem := t.mem, pc := s.pc + 2#12 } ∧
      (t.byte s.index.toNat).toNat = (s.reg x).toNat / 100 ∧
      (t.byte (s.index.toNat + 1)).toNat = (s.reg x).toNat / 10 % 10 ∧
      (t.byte (s.index.toNat + 2)).toNat = (s.reg x).toNat % 10 ∧
      ∀ a, (a < s.index.toNat ∨ s.index.toNat + 3 ≤ a) → t.byte a = s.byte a

/-- `Fx55` stores V0 to `V[x]` at I, the register number rising with the address, and changes no other
byte and nothing else but pc: I is kept (the spec's decision D1). -/
def Obligations.RegistersAreStored : Prop :=
  ∀ (s : State) (x : Nibble), Memory.wf s.params.resetByte s.mem →
    s.index.toNat + x.toNat + 1 ≤ s.params.memSize → s.pc.toNat + 2 ≤ 0xFFF →
    ∃ t, exec (.stRegs x) s = .next t ∧ t = { s with mem := t.mem, pc := s.pc + 2#12 } ∧
      (∀ r : Nibble, r.toNat ≤ x.toNat → t.byte (s.index.toNat + r.toNat) = s.reg r) ∧
      ∀ a, (a < s.index.toNat ∨ s.index.toNat + x.toNat + 1 ≤ a) → t.byte a = s.byte a

/-- `Fx65` loads V0 to `V[x]` from I, keeps the registers above x, and changes nothing else but pc: I is
kept (the spec's decision D1). -/
def Obligations.RegistersAreLoaded : Prop :=
  ∀ (s : State) (x : Nibble),
    s.index.toNat + x.toNat + 1 ≤ s.params.memSize → s.pc.toNat + 2 ≤ 0xFFF →
    ∃ t, exec (.ldRegs x) s = .next t ∧ t = { s with v := t.v, pc := s.pc + 2#12 } ∧
      ∀ r : Nibble, t.reg r =
        if r.toNat ≤ x.toNat then s.byte (s.index.toNat + r.toNat) else s.reg r

/-! ### Pattern IXYN and the framebuffer engine (45_ixyn_draw.md) -/

/-- `Dxyn` draws the n bytes at I at `(V[x], V[y])`, sets VF to the collision flag and advances pc; with
`n = 0` memory need not reach I. -/
def Obligations.DrawBlitsAndFlags : Prop :=
  ∀ (s : State) (x y n : Nibble),
    n = 0#4 ∨ s.index.toNat + n.toNat ≤ s.params.memSize → s.pc.toNat + 2 ≤ 0xFFF →
    exec (.drw x y n) s = .next { s with
      fb := (drawSprite s.params s.fb (s.reg x).toNat (s.reg y).toNat
        ((List.range n.toNat).map fun r => s.byte (s.index.toNat + r))).1
      v := s.v.set 15 (if (drawSprite s.params s.fb (s.reg x).toNat (s.reg y).toNat
        ((List.range n.toNat).map fun r => s.byte (s.index.toNat + r))).2 then 1#8 else 0#8)
      pc := s.pc + 2#12 }

/-- A sprite toggles exactly the pixels its 1 bits land on, clipped or wrapped pixel by pixel, where no
two of its pixels share a place (R160, R162). -/
def Obligations.SpriteTogglesWhatItLandsOn : Prop :=
  ∀ (p : Params) (fb : Frame) (x0 y0 : Nat) (rows : List Byte),
    0 < p.fbWidth → 0 < p.fbHeight → gridFits p fb → noOverlap p rows.length →
    ∀ u v, u < p.fbWidth → v < p.fbHeight →
      (drawSprite p fb x0 y0 rows).1.pixel u v = (fb.pixel u v != spriteLands p x0 y0 rows u v)

/-- The collision flag is true exactly when some 1 bit lands on a pixel that was on, where no two pixels
of the sprite share a place. -/
def Obligations.CollisionIffALitPixelIsHit : Prop :=
  ∀ (p : Params) (fb : Frame) (x0 y0 : Nat) (rows : List Byte),
    0 < p.fbWidth → 0 < p.fbHeight → gridFits p fb → noOverlap p rows.length →
    ((drawSprite p fb x0 y0 rows).2 = true ↔
      ∃ u v, u < p.fbWidth ∧ v < p.fbHeight ∧ fb.pixel u v = true ∧
        spriteLands p x0 y0 rows u v = true)

/-- Drawing the same sprite twice at the same place restores the framebuffer, where no two of its pixels
share a place; the second draw reports a collision exactly when some landing 1 bit found its pixel off
at the first. -/
def Obligations.DrawingTwiceRestores : Prop :=
  ∀ (p : Params) (fb : Frame) (x0 y0 : Nat) (rows : List Byte),
    0 < p.fbWidth → 0 < p.fbHeight → gridFits p fb → noOverlap p rows.length →
    (drawSprite p (drawSprite p fb x0 y0 rows).1 x0 y0 rows).1 = fb ∧
    ((drawSprite p (drawSprite p fb x0 y0 rows).1 x0 y0 rows).2 = true ↔
      ∃ u v, u < p.fbWidth ∧ v < p.fbHeight ∧ fb.pixel u v = false ∧
        spriteLands p x0 y0 rows u v = true)

/-- An all-zero sprite never reports a collision and changes no pixel, whatever the framebuffer, the
place and the parameters. -/
def Obligations.ZeroSpriteDoesNothing : Prop :=
  ∀ (p : Params) (fb : Frame) (x0 y0 height : Nat),
    drawSprite p fb x0 y0 (List.replicate height 0#8) = (fb, false)

/-- The XOR of one pixel: a false value is a no-op that reports false; a true value toggles the pixel at
the wrapped coordinate, or at the coordinate itself where it is on the screen, and reports whether it was
on; off the screen without wrap nothing happens. No other pixel changes. A second toggle of a pixel that
was off reports the switch-off (R160, R161). -/
def Obligations.XorPixelTogglesOnePixel : Prop :=
  ∀ (p : Params) (fb : Frame) (px py : Nat),
    0 < p.fbWidth → 0 < p.fbHeight → gridFits p fb →
    xorPixel p fb px py false = (fb, false) ∧
    (p.wrap = false → (p.fbWidth ≤ px ∨ p.fbHeight ≤ py) → xorPixel p fb px py true = (fb, false)) ∧
    ∀ u v,
      ((p.wrap = true ∧ u = px % p.fbWidth ∧ v = py % p.fbHeight) ∨
        (p.wrap = false ∧ px < p.fbWidth ∧ py < p.fbHeight ∧ u = px ∧ v = py)) →
      (xorPixel p fb px py true).2 = fb.pixel u v ∧
      (xorPixel p fb px py true).1.pixel u v = (!fb.pixel u v) ∧
      (fb.pixel u v = false →
        (xorPixel p (xorPixel p fb px py true).1 px py true).2 = true) ∧
      ∀ a b, (a ≠ u ∨ b ≠ v) → (xorPixel p fb px py true).1.pixel a b = fb.pixel a b

/-! ### Timers, keys and the key wait (60_exceptions.md) -/

/-- One timer under a tick: the time accumulates; where it reaches the threshold the threshold is taken
off and a non-zero value loses 1, at most one a call. So the value never rises, never falls by more
than 1, and 0 stays 0 (R182). -/
def Obligations.TimerTickAlgorithm : Prop :=
  ∀ (threshold dt : Nat) (t : Timer),
    (t.elapsed + dt < threshold →
      timerTick threshold t dt = ⟨t.value, t.elapsed + dt⟩) ∧
    (threshold ≤ t.elapsed + dt → 0#8 < t.value →
      timerTick threshold t dt = ⟨t.value - 1#8, t.elapsed + dt - threshold⟩) ∧
    (threshold ≤ t.elapsed + dt → t.value = 0#8 →
      timerTick threshold t dt = ⟨0#8, t.elapsed + dt - threshold⟩) ∧
    (timerTick threshold t dt).value.toNat ≤ t.value.toNat ∧
    t.value.toNat ≤ (timerTick threshold t dt).value.toNat + 1

/-- The scan takes the lowest pressed key into the waiting register and clears the wait; with no key down
nothing changes (R188). -/
def Obligations.ScanTakesTheLowestKey : Prop :=
  ∀ s : State,
    ((∀ k, s.key k = false) → s.scanKeys = s) ∧
    ∀ k : Nibble, s.key k = true → (∀ j : Nibble, j.toNat < k.toNat → s.key j = false) →
      s.scanKeys = { s with v := s.v.set s.wreg.toNat (k.setWidth 8), wait := false }

/-- A tick of a waiting machine with no key down moves the timers and nothing else, whatever `IPT`, be the
tick pending or the free one taken where no input is pending (log entry 4). -/
def Obligations.WaitingTickOnlyMovesTimers : Prop :=
  ∀ (s t : State) (dt : Nat),
    s.tickTaken dt t → s.fault = none → s.wait = true → (∀ k, s.key k = false) →
    step s = .next { t with
      delay := timerTick s.params.threshold s.delay dt
      sound := timerTick s.params.threshold s.sound dt }

/-- A tick that finds a key ends the wait and runs `IPT` instructions in that same tick (60_exceptions.md
R188, R189), for `IPT = 1` one, be the tick pending or the free one (log entry 4). Two points are the
spec's decisions: the timers are already advanced when the instructions run (D23, log entry 22), and pc,
which moved past the `Fx0A` when it executed, does not move when the key is found (D7, log entry 11). -/
def Obligations.KeyEndsTheWaitInTheSameTick : Prop :=
  ∀ (s t : State) (dt : Nat) (k : Nibble),
    s.tickTaken dt t → s.fault = none → s.wait = true →
    s.key k = true → (∀ j : Nibble, j.toNat < k.toNat → s.key j = false) →
    ∃ u, u = { t with
        delay := timerTick s.params.threshold s.delay dt
        sound := timerTick s.params.threshold s.sound dt
        v := s.v.set s.wreg.toNat (k.setWidth 8)
        wait := false } ∧
      step s = execMany s.params.ipt u ∧
      (s.params.ipt = 1 → step s = execOne u)

/-- A tick of a running machine runs up to `IPT` instructions and stops early at one that faults or
enters a key wait, be the tick pending or the free one (log entry 4). The early stop is the spec's
decision D15 (log entry 19), and that the timers are advanced before the instructions its decision D23
(log entry 22). -/
def Obligations.TickStopsAtFaultOrWait : Prop :=
  (∀ (s t : State) (dt : Nat),
    s.tickTaken dt t → s.fault = none → s.wait = false →
    step s = execMany s.params.ipt { t with
      delay := timerTick s.params.threshold s.delay dt
      sound := timerTick s.params.threshold s.sound dt }) ∧
  (∀ s : State, execMany 0 s = .next s) ∧
  (∀ (n : Nat) (s t : State), execOne s = .next t → t.fault ≠ none ∨ t.wait = true →
    execMany (n + 1) s = .next t) ∧
  (∀ (n : Nat) (s t : State), execOne s = .next t → t.fault = none → t.wait = false →
    execMany (n + 1) s = execMany n t)

/-- `Press(k)` and `Release(k)` set and clear one key flag and do nothing else, in every state, waiting
and faulted included; `Pressed(k)` answers the flag (R186). -/
def Obligations.KeyEventsSetOneFlag : Prop :=
  ∀ (s : State) (rest : List Event) (k : Nibble),
    (s.inputs = .press k :: rest →
      step s = .next { s with inputs := rest, keys := s.keys.set k.toNat true }) ∧
    (s.inputs = .release k :: rest →
      step s = .next { s with inputs := rest, keys := s.keys.set k.toNat false }) ∧
    s.pressed k = s.keys[k.toNat]

/-! ### Host loads, reset and faults -/

/-- `LoadMem` inside memory stores its bytes and changes no other byte and nothing else of the machine;
outside memory it writes nothing, is reported, and leaves FAULT alone (the spec's decisions D13 and
D14). -/
def Obligations.HostLoadStoresOrReports : Prop :=
  ∀ (s : State) (rest : List Event) (bytes : List Byte) (loc : Nat),
    s.inputs = .loadMem bytes loc :: rest →
    (Memory.wf s.params.resetByte s.mem → loc + bytes.length ≤ s.params.memSize →
      ∃ t, step s = .next t ∧
        t = { s with inputs := rest, mem := t.mem, loadReport := none } ∧
        (∀ (j : Nat) (h : j < bytes.length), t.byte (loc + j) = bytes[j]) ∧
        ∀ a, (a < loc ∨ loc + bytes.length ≤ a) → t.byte a = s.byte a) ∧
    (s.params.memSize < loc + bytes.length →
      step s = .next { s with
        inputs := rest
        loadReport := some (.memoryBoundsViolation .hostLoad loc bytes.length) })

/-- `Reset(params)` with legal parameters produces the reset state from every state, faulted ones too:
the framebuffer off, pc at `PC_RESET`, every byte of the font region that of its digit, padded with 0 to
the stride, and the spec's own decisions D10, D14 and D20 for the rest (10_state.md R38,
70_reset_and_hazards.md R212). What the host will do next and the draw counter are the model's own and
stay (log entry 25). -/
def Obligations.ResetProducesTheResetState : Prop :=
  ∀ (s : State) (rest : List Event) (p : Params),
    s.inputs = .reset p :: rest → p.check = none →
    ∃ t, step s = .next t ∧ t.params = p ∧ t.pc = p.pcReset ∧
      gridFits p t.fb ∧ (∀ x y, t.pixel x y = false) ∧
      (∀ r, t.reg r = 0#8) ∧ t.index = 0#16 ∧ t.stack = [] ∧
      t.delay = ⟨0#8, 0⟩ ∧ t.sound = ⟨0#8, 0⟩ ∧ (∀ k, t.key k = false) ∧
      t.wait = false ∧ t.wreg = 0#4 ∧ t.fault = none ∧
      (∀ a, a < p.fontBase ∨ p.fontBase + 16 * p.fontStride ≤ a → t.byte a = 0#8) ∧
      (∀ (d : Fin 16) (j : Nat), j < p.fontStride →
        t.byte (p.fontBase + d.val * p.fontStride + j) = (p.fontData[d.val][j]?).getD 0#8) ∧
      t.inputs = rest ∧ t.draws = s.draws

/-- The font copy of a construction: digit d stands at `FONT_BASE + d*FONT_STRIDE`, the bytes after a
digit shorter than the stride are 0, and the stride is the longest digit (R212). -/
def Obligations.FontIsCopiedAtReset : Prop :=
  ∀ (p : Params) (d : Fin 16),
    (∀ j, j < p.fontStride →
      (State.construct p).byte (p.fontBase + d.val * p.fontStride + j) =
        (p.fontData[d.val][j]?).getD 0#8) ∧
    p.fontData[d.val].length ≤ p.fontStride ∧
    ∃ e : Fin 16, p.fontData[e.val].length = p.fontStride

/-- Which parameters a construction accepts (00_scope.md R7 and the ranges of R6), and that every other
construction fails with a named reason and leaves no machine. -/
def Obligations.ConstructionChecksItsParameters : Prop :=
  ∀ p : Params,
    (p.check = none ↔
      (0 < p.fbWidth ∧ 0 < p.fbHeight ∧ 2 ≤ p.memSize ∧ p.memSize ≤ 65536 ∧ 1 ≤ p.ipt ∧
        0 < p.fps ∧ 0 < p.threshold ∧ p.stackDepth ≠ some 0 ∧
        ∀ d : Fin 16,
          p.fontBase + d.val * p.fontStride + p.fontData[d.val].length ≤ p.memSize)) ∧
    ∀ (s : State) (rest : List Event) (r : FaultRecord),
      s.inputs = .reset p :: rest → p.check = some r → step s = .fault (.constructionFailed r)

/-- A recorded fault stays until `Reset`: no other event clears or changes it (the spec's decision
D14). -/
def Obligations.FaultStaysUntilReset : Prop :=
  ∀ (s t : State) (r : FaultRecord), s.fault = some r → (∀ p, s.nextEvent.1 ≠ .reset p) →
    step s = .next t → t.fault = some r

/-- While a fault is recorded neither `Tick` nor `Exec` is enabled, and a direct `Exec` while the machine
waits for a key has no meaning: each is refused by name (the spec's decisions D14 and D15). -/
def Obligations.DisabledEventsAreRefused : Prop :=
  (∀ (s : State) (rest : List Event) (dt : Nat) (r : FaultRecord), s.fault = some r →
    (s.inputs = .tick dt :: rest ∨ s.inputs = .exec :: rest ∨ s.inputs = []) →
    step s = .refused (.haltedByFault r)) ∧
  (∀ (s : State) (rest : List Event), s.fault = none → s.wait = true → s.inputs = .exec :: rest →
    step s = .refused .execWhileWaiting)

/-- A step records no fault but those a program can cause: never `InvalidInstruction`,
`FieldAccessViolation`, `OutOfRange`, `ConstructionError` or a host load's bounds violation
(60_exceptions.md section 1). -/
def Obligations.OnlyProgramFaultsAreRecorded : Prop :=
  ∀ (s t : State) (r : FaultRecord), s.fault = none → step s = .next t → t.fault = some r →
    r.raisedByExec = true

/-- Where pc cannot advance inside 12 bits it keeps its value and `MemoryBoundsViolation(t, 2)` with
sub-cause PcRange is recorded, t the value it would have had, with the instruction's other writes done
(30_encoding.md R82, 60_exceptions.md R176; the fault is the spec's decision D4, what is written its
decision D13, log entries 13 and 12).

First, every advancing instruction. Its effect away from the top of the range, at pc 0, is a state `u`:
either its own fault and nothing else, and then it does the same at every pc; or its writes with pc
advanced by 2, or by 4 for a taken skip, and then, where that advance leaves 12 bits, it makes the same
writes, keeps pc and records the fault. Then, each on its own: the six skips, taken; the indexed jump; and
the return, whose pc is the popped address. -/
def Obligations.PcNeverLeavesTwelveBits : Prop :=
  (∀ (s : State) (i : Instr), i.advances = true →
    ∃ u, exec i { s with pc := 0#12 } = .next u ∧
      ((∃ r, u = { s with pc := 0#12, fault := some r } ∧
          exec i s = .next { s with fault := some r }) ∨
        ((u.pc = 2#12 ∨ (i.skips = true ∧ u.pc = 4#12)) ∧ u.fault = s.fault ∧
          (0xFFF < s.pc.toNat + u.pc.toNat →
            exec i s = .next { u with
              pc := s.pc
              fault := some (.memoryBoundsViolation .pcRange (s.pc.toNat + u.pc.toNat) 2) })))) ∧
  (∀ (s : State) (i : Instr) (x y k : Nibble) (kk : Byte), 0xFFF < s.pc.toNat + 4 →
    ((i = .seImm x kk ∧ s.reg x = kk) ∨ (i = .sneImm x kk ∧ s.reg x ≠ kk) ∨
      (i = .seReg x y ∧ s.reg x = s.reg y) ∨ (i = .sneReg x y ∧ s.reg x ≠ s.reg y) ∨
      (i = .skp x ∧ (s.reg x).toNat = k.toNat ∧ s.key k = true) ∨
      (i = .sknp x ∧ (s.reg x).toNat = k.toNat ∧ s.key k = false)) →
    exec i s = .next { s with
      fault := some (.memoryBoundsViolation .pcRange (s.pc.toNat + 4) 2) }) ∧
  (∀ (s : State) (nnn : Addr), 0xFFF < nnn.toNat + (s.reg 0#4).toNat →
    exec (.jpv0 nnn) s = .next { s with
      fault := some (.memoryBoundsViolation .pcRange (nnn.toNat + (s.reg 0#4).toNat) 2) }) ∧
  (∀ (s : State) (below : List Addr) (a : Addr), s.stack = below ++ [a] → 0xFFF < a.toNat + 2 →
    exec .ret s = .next { s with
      stack := below
      pc := a
      fault := some (.memoryBoundsViolation .pcRange (a.toNat + 2) 2) })

/-- An instruction's own fault changes nothing but FAULT: an empty or full stack, a key number above 15,
a transfer or a sprite that crosses the end of memory (the names and the untouched state are the spec's
decisions D8, D9 and D13). -/
def Obligations.OwnFaultsChangeNothingElse : Prop :=
  ∀ s : State,
    (s.stack = [] → exec .ret s = .next { s with fault := some .stackUnderflow }) ∧
    (∀ nnn, s.params.stackDepth = some s.stack.length →
      exec (.call nnn) s = .next { s with fault := some .stackOverflow }) ∧
    (∀ x, 15 < (s.reg x).toNat →
      exec (.skp x) s = .next { s with fault := some (.keyIndexOutOfRange (s.reg x)) } ∧
      exec (.sknp x) s = .next { s with fault := some (.keyIndexOutOfRange (s.reg x)) }) ∧
    (∀ x, s.params.memSize < s.index.toNat + 3 →
      exec (.ldBVx x) s = .next { s with
        fault := some (.memoryBoundsViolation .dataWrite s.index.toNat 3) }) ∧
    (∀ x, s.params.memSize < s.index.toNat + (x.toNat + 1) →
      exec (.stRegs x) s = .next { s with
        fault := some (.memoryBoundsViolation .dataWrite s.index.toNat (x.toNat + 1)) } ∧
      exec (.ldRegs x) s = .next { s with
        fault := some (.memoryBoundsViolation .dataRead s.index.toNat (x.toNat + 1)) }) ∧
    (∀ x y n, n ≠ 0#4 → s.params.memSize < s.index.toNat + n.toNat →
      exec (.drw x y n) s = .next { s with
        fault := some (.memoryBoundsViolation .dataRead s.index.toNat n.toNat) })

/-! ### Frames (10_state.md R21, R39; 20_memory.md R52) -/

/-- No instruction changes a register that 10_state.md's table of writes does not give it. -/
def Obligations.RegistersFrame : Prop :=
  ∀ (i : Instr) (s t : State) (r : Nibble), exec i s = .next t → i.writesReg r = false →
    t.reg r = s.reg r

/-- Only `Fx33` and `Fx55` store to memory, each inside the bytes at I it names; every other byte reads as
before, and under every other instruction every byte does. -/
def Obligations.MemoryFrame : Prop :=
  ∀ (i : Instr) (s t : State), exec i s = .next t →
    (i.storeRange s = none → ∀ a, t.byte a = s.byte a) ∧
    (∀ b n, i.storeRange s = some (b, n) →
      ∀ a, (a < b ∨ b + n ≤ a) → t.byte a = s.byte a)

/-- What else no instruction changes: the parameters, the keys, both accumulators, the pending inputs and
the load report; and I, the stack, the framebuffer, the timer values, the key wait, the draw counter and
FAULT but for the instructions the spec names. -/
def Obligations.OtherStateFrame : Prop :=
  ∀ (i : Instr) (s t : State), exec i s = .next t →
    t.params = s.params ∧ t.keys = s.keys ∧ t.inputs = s.inputs ∧ t.loadReport = s.loadReport ∧
    t.delay.elapsed = s.delay.elapsed ∧ t.sound.elapsed = s.sound.elapsed ∧
    (i.writesIndex = false → t.index = s.index) ∧
    (i.writesStack = false → t.stack = s.stack) ∧
    (i.writesFb = false → t.fb = s.fb) ∧
    ((∀ x, i ≠ .ldDtVx x) → t.delay = s.delay) ∧
    ((∀ x, i ≠ .ldStVx x) → t.sound = s.sound) ∧
    ((∀ x, i ≠ .ldVxK x) → t.wait = s.wait ∧ t.wreg = s.wreg) ∧
    ((∀ x kk, i ≠ .rnd x kk) → t.draws = s.draws) ∧
    (t.fault = s.fault ∨ ∃ r, t.fault = some r ∧ r.raisedByExec = true)

/-! ### The whole machine -/

/-- Every instruction answers a next state in every state: the faults of the hardware are recorded in
that state, and no instruction stops the model. -/
def Obligations.NoInstructionStops : Prop :=
  ∀ (i : Instr) (s : State), ∃ t, exec i s = .next t

/-- The state after reset, and every construction with legal parameters, meets the invariant. -/
def Obligations.ResetMeetsTheInvariant : Prop :=
  State.reset.Inv ∧ ∀ p : Params, p.check = none → (State.construct p).Inv

/-- Every step keeps the invariant: legal parameters, a canonical memory inside its bounds, a framebuffer
of the constructed size, a stack within its capacity, and equal accumulators of the two timers. -/
def Obligations.StepKeepsTheInvariant : Prop :=
  ∀ s t : State, s.Inv → step s = .next t → t.Inv

/-- What the host reads: a pixel outside the grid is off, wrapping or not (the spec's decision D24), one
inside it is the grid's (45_ixyn_draw.md R165). A snapshot shows pc, the registers, I, both timer values,
the stack and the keys (60_exceptions.md R196), and the bytes at pc, high byte first, or none where
`pc + 2` exceeds memory (the spec's decision D29). -/
def Obligations.ObserversAnswerFromTheState : Prop :=
  ∀ s : State,
    (∀ x y, s.params.fbWidth ≤ x ∨ s.params.fbHeight ≤ y → s.pixel x y = false) ∧
    (∀ x y, x < s.params.fbWidth → y < s.params.fbHeight → s.pixel x y = Frame.pixel s.fb x y) ∧
    s.snapshot.pc = s.pc ∧ s.snapshot.v = s.v ∧ s.snapshot.index = s.index ∧
    s.snapshot.delayValue = s.delay.value ∧ s.snapshot.soundValue = s.sound.value ∧
    s.snapshot.stack = s.stack ∧ s.snapshot.keys = s.keys ∧
    (s.pc.toNat + 2 ≤ s.params.memSize →
      s.snapshot.nextBytes = some (s.byte s.pc.toNat, s.byte (s.pc.toNat + 1))) ∧
    (s.params.memSize < s.pc.toNat + 2 → s.snapshot.nextBytes = none)
end

