-- ==== Sys2Proof/Laws/Flags.lean ====
section
/-! SUPPORT. What each ALU function computes, as plain arithmetic on the operands' numbers
(43_ixyi_alu.md R120). -/

namespace Sys2Proof.Machine

@[simp] theorem flagByte_true : flagByte true = 1#8 := rfl

@[simp] theorem flagByte_false : flagByte false = 0#8 := rfl

/-- A decided flag is 1 or 0 by its condition. -/
theorem flagByte_decide (q : Prop) [Decidable q] : flagByte (decide q) = if q then 1#8 else 0#8 := by
  by_cases h : q <;> simp [h]

theorem addResult_toNat (a b : Byte) : (addResult a b).toNat = (a.toNat + b.toNat) % 256 := by
  simp [addResult, exactSum]

theorem addCarry_eq (a b : Byte) : addCarry a b = decide (255 < a.toNat + b.toNat) := rfl

theorem noBorrow_eq (a b : Byte) : noBorrow a b = decide (b.toNat ≤ a.toNat) := by
  show decide _ = decide _
  simp [exactDiff]

/-- The clamped difference is the truncated one. -/
theorem subResult_toNat (a b : Byte) : (subResult a b).toNat = a.toNat - b.toNat := by
  have := a.isLt
  simp only [subResult, exactDiff, BitVec.toNat_ofNat]
  omega

theorem shrResult_toNat (b : Byte) : (shrResult b).toNat = b.toNat / 2 := by
  have := b.isLt
  simp only [shrResult, BitVec.toNat_ofNat]
  omega

theorem shlResult_toNat (b : Byte) : (shlResult b).toNat = (2 * b.toNat) % 256 := by
  simp [shlResult]

theorem shrOut_toNat (b : Byte) : (flagByte (shrOut b)).toNat = b.toNat % 2 := by
  rw [shrOut, flagByte_decide]
  split <;> simp_all

theorem shlOut_toNat (b : Byte) : (flagByte (shlOut b)).toNat = b.toNat / 128 := by
  have := b.isLt
  rw [shlOut, flagByte_decide]
  split <;> simp_all <;> omega

end Sys2Proof.Machine
end

