-- ==== Sys2Proof/Laws/Framebuffer.lean ====
section
/-! SUPPORT. The laws of the pixel grid (10_state.md R28) and of the XOR of one pixel (45_ixyn_draw.md
R160, R161): what a toggle changes, and that the engine keeps the grid's shape. -/

namespace Sys2Proof.Machine

variable {p : Params} {fb : Frame}

theorem Frame.pixel_def (fb : Frame) (x y : Nat) :
    fb.pixel x y = ((fb[y]?.getD [])[x]?).getD false := rfl

/-- A toggle leaves every other pixel alone. -/
theorem Frame.toggle_pixel_other {x y u v : Nat} (h : ¬ (x = u ∧ y = v)) :
    (fb.toggle u v).pixel x y = fb.pixel x y := by
  simp only [Frame.pixel_def, Frame.toggle, List.getElem?_modify]
  by_cases hy : v = y
  · subst hy
    have hx : u ≠ x := fun e => h ⟨e.symm, rfl⟩
    cases hr : fb[v]? <;> simp [hx]
  · simp [hy]

/-- A toggle flips its own pixel, inside the grid. -/
theorem Frame.toggle_pixel_same {u v : Nat} (hf : gridFits p fb) (hu : u < p.fbWidth)
    (hv : v < p.fbHeight) : (fb.toggle u v).pixel u v = !fb.pixel u v := by
  have hv' : v < fb.length := by rw [hf.1]; exact hv
  have hu' : u < fb[v].length := by rw [hf.2 _ (List.getElem_mem hv')]; exact hu
  simp [Frame.pixel_def, Frame.toggle, hv', hu']

/-- What a pixel is after a toggle inside the grid. -/
theorem Frame.toggle_pixel {x y u v : Nat} (hf : gridFits p fb) (hu : u < p.fbWidth)
    (hv : v < p.fbHeight) :
    (fb.toggle u v).pixel x y = (fb.pixel x y != decide (x = u ∧ y = v)) := by
  by_cases h : x = u ∧ y = v
  · obtain ⟨rfl, rfl⟩ := h
    simp [Frame.toggle_pixel_same hf hu hv]
  · simp [Frame.toggle_pixel_other h, h]

/-- A toggle keeps the grid's shape. -/
theorem Frame.toggle_fits {u v : Nat} (hf : gridFits p fb) : gridFits p (fb.toggle u v) := by
  refine ⟨by simpa [Frame.toggle] using hf.1, fun row hr => ?_⟩
  obtain ⟨j, hj, rfl⟩ := List.getElem_of_mem hr
  have hj' : j < fb.length := by simpa [Frame.toggle] using hj
  simp only [Frame.toggle, List.getElem_modify]
  split
  · simpa using hf.2 _ (List.getElem_mem hj')
  · exact hf.2 _ (List.getElem_mem hj')

/-- The cleared grid has the shape the parameters give it. -/
theorem clearedFrame_fits (p : Params) : gridFits p (clearedFrame p) := by
  refine ⟨by simp [clearedFrame], fun row hr => ?_⟩
  rw [List.eq_of_mem_replicate hr, List.length_replicate]

/-- Every pixel of the cleared grid is off. -/
theorem clearedFrame_pixel (p : Params) (x y : Nat) : (clearedFrame p).pixel x y = false := by
  rw [Frame.pixel_def, clearedFrame, List.getElem?_replicate]
  split
  · simp only [Option.getD_some, List.getElem?_replicate]
    split <;> rfl
  · rfl

/-- Two grids of one shape with the same pixels are equal. -/
theorem Frame.ext_of_fits {fb' : Frame} (hf : gridFits p fb) (hf' : gridFits p fb')
    (h : ∀ x y, x < p.fbWidth → y < p.fbHeight → fb.pixel x y = fb'.pixel x y) : fb = fb' := by
  refine List.ext_getElem (hf.1.trans hf'.1.symm) fun y hy hy' => ?_
  have r := hf.2 _ (List.getElem_mem hy)
  have r' := hf'.2 _ (List.getElem_mem hy')
  refine List.ext_getElem (r.trans r'.symm) fun x hx hx' => ?_
  have := h x y (r ▸ hx) (hf.1 ▸ hy)
  simpa [Frame.pixel_def, hy, hy', hx, hx'] using this

/-- A normalised coordinate lies on the screen. -/
theorem normCoord_lt {px py u v : Nat} (hw : 0 < p.fbWidth) (hh : 0 < p.fbHeight)
    (h : normCoord p px py = some (u, v)) : u < p.fbWidth ∧ v < p.fbHeight := by
  unfold normCoord at h
  split_ifs at h with h1 h2
  · simp only [Option.some.injEq, Prod.mk.injEq] at h
    exact ⟨h.1 ▸ Nat.mod_lt _ hw, h.2 ▸ Nat.mod_lt _ hh⟩
  · simp only [Option.some.injEq, Prod.mk.injEq] at h
    exact ⟨h.1 ▸ h2.1, h.2 ▸ h2.2⟩

/-- What the XOR of one pixel can do: nothing, or one toggle that reports the old pixel. -/
theorem xorPixel_cases (p : Params) (fb : Frame) (px py : Nat) (b : Bool) :
    ((b = false ∨ normCoord p px py = none) ∧ xorPixel p fb px py b = (fb, false)) ∨
    ∃ u v, b = true ∧ normCoord p px py = some (u, v) ∧
      xorPixel p fb px py b = (fb.toggle u v, fb.pixel u v) := by
  cases b
  · exact .inl ⟨.inl rfl, rfl⟩
  · cases h : normCoord p px py with
    | none => exact .inl ⟨.inr rfl, by simp [xorPixel, h]⟩
    | some uv => exact .inr ⟨uv.1, uv.2, rfl, rfl, by simp [xorPixel, h]⟩

/-- The XOR of one pixel keeps the grid's shape. -/
theorem xorPixel_fits {px py : Nat} {b : Bool} (hf : gridFits p fb) :
    gridFits p (xorPixel p fb px py b).1 := by
  rcases xorPixel_cases p fb px py b with ⟨-, e⟩ | ⟨u, v, -, -, e⟩ <;> rw [e]
  · exact hf
  · exact Frame.toggle_fits hf

/-- One row of a sprite keeps the grid's shape. -/
theorem drawRow_fits {x0 py : Nat} {b : Byte} {acc : Frame × Bool} (hf : gridFits p acc.1) :
    gridFits p (drawRow p x0 py b acc).1 := by
  unfold drawRow
  generalize List.range 8 = l
  induction l generalizing acc with
  | nil => exact hf
  | cons c l ih => exact ih (acc := drawColumn p x0 py b acc c) (xorPixel_fits hf)

/-- A sprite keeps the grid's shape. -/
theorem drawSprite_fits {x0 y0 : Nat} {rows : List Byte} (hf : gridFits p fb) :
    gridFits p (drawSprite p fb x0 y0 rows).1 := by
  unfold drawSprite
  have : ∀ (py : Nat) (acc : Frame × Bool), gridFits p acc.1 →
      gridFits p (drawRows p x0 py rows acc).1 := by
    induction rows with
    | nil => exact fun _ _ h => h
    | cons b rows ih => exact fun py acc h => ih (py + 1) _ (drawRow_fits h)
  exact this y0 (fb, false) hf

end Sys2Proof.Machine
end

