-- ==== Sys2Proof/Laws/Memory.lean ====
section
/-! SUPPORT. The laws of memory in its canonical form: a read after a write, the frame of a write, and
that every operation keeps the form (20_memory.md R50, R51, R61). -/

namespace Sys2Proof.Machine

variable {d : Nat → Byte} {m : List Host.Cell} {a k : Nat} {b c : Byte}

@[simp] theorem Memory.read_nil : Memory.read d [] a = d a := rfl

theorem Memory.read_cons : Memory.read d ((k, c) :: m) a = if a = k then c else Memory.read d m a := rfl

theorem Memory.wf_nil : Memory.wf d [] := ⟨List.Pairwise.nil, by simp⟩

theorem Memory.wf_cons :
    Memory.wf d ((k, c) :: m) ↔ (∀ x ∈ m, k < x.1) ∧ c ≠ d k ∧ Memory.wf d m := by
  simp only [Memory.wf, List.pairwise_cons, List.mem_cons, forall_eq_or_imp]
  tauto

/-- An address no cell names reads as unlisted. -/
theorem Memory.read_of_not_mem (h : ∀ x ∈ m, x.1 ≠ a) : Memory.read d m a = d a := by
  induction m with
  | nil => rfl
  | cons x m ih =>
    obtain ⟨k, c⟩ := x
    rw [Memory.read_cons, if_neg (fun e => h (k, c) (by simp) e.symm)]
    exact ih fun y hy => h y (by simp [hy])

/-- A write leaves every other address alone. -/
theorem Memory.read_write_other {a' : Nat} (h : a' ≠ a) :
    Memory.read d (Memory.write d m a b) a' = Memory.read d m a' := by
  induction m with
  | nil =>
    simp only [Memory.write]
    split <;> simp [Memory.read_cons, h]
  | cons x m ih =>
    obtain ⟨k, c⟩ := x
    simp only [Memory.write]
    split_ifs <;> simp_all [Memory.read_cons]

/-- A read after a write to the same address gives the byte written. -/
theorem Memory.read_write_same (h : Memory.wf d m) : Memory.read d (Memory.write d m a b) a = b := by
  induction m with
  | nil =>
    simp only [Memory.write]
    split <;> simp_all [Memory.read_cons]
  | cons x m ih =>
    obtain ⟨k, c⟩ := x
    obtain ⟨hk, -, hm⟩ := Memory.wf_cons.1 h
    simp only [Memory.write]
    split_ifs with h1 h2 h3 h4
    · rw [h2]
      refine Memory.read_of_not_mem fun x hx => ?_
      rcases List.mem_cons.1 hx with rfl | hx
      · exact (ne_of_lt h1).symm
      · exact (ne_of_lt (h1.trans (hk x hx))).symm
    · simp [Memory.read_cons]
    · rw [h4]
      exact Memory.read_of_not_mem fun x hx => by have := hk x hx; omega
    · simp [Memory.read_cons]
    · rw [Memory.read_cons, if_neg h3, ih hm]

/-- Every address a write lists was listed before or is the one written. -/
theorem Memory.mem_write {x : Host.Cell} (h : x ∈ Memory.write d m a b) : x ∈ m ∨ x = (a, b) := by
  induction m with
  | nil =>
    simp only [Memory.write] at h
    split at h <;> simp_all
  | cons y m ih =>
    obtain ⟨k, c⟩ := y
    simp only [Memory.write] at h
    split_ifs at h <;> simp_all <;> tauto

/-- A write keeps the canonical form. -/
theorem Memory.write_wf (h : Memory.wf d m) : Memory.wf d (Memory.write d m a b) := by
  induction m with
  | nil =>
    simp only [Memory.write]
    split
    · exact Memory.wf_nil
    · simp_all [Memory.wf]
  | cons y m ih =>
    obtain ⟨k, c⟩ := y
    obtain ⟨hk, hc, hm⟩ := Memory.wf_cons.1 h
    simp only [Memory.write]
    split_ifs with h1 h2 h3 h4
    · exact h
    · refine Memory.wf_cons.2 ⟨fun x hx => ?_, h2, h⟩
      rcases List.mem_cons.1 hx with rfl | hx
      · exact h1
      · exact h1.trans (hk x hx)
    · exact hm
    · exact Memory.wf_cons.2 ⟨h3 ▸ hk, h4, hm⟩
    · refine Memory.wf_cons.2 ⟨fun x hx => ?_, hc, ih hm⟩
      rcases Memory.mem_write hx with hx | rfl
      · exact hk x hx
      · exact lt_of_le_of_ne (not_lt.1 h1) (Ne.symm h3)

/-- Storing a list keeps the canonical form. -/
theorem Memory.writeList_wf (h : Memory.wf d m) (bs : List Byte) :
    Memory.wf d (Memory.writeList d m a bs) := by
  induction bs generalizing m a with
  | nil => exact h
  | cons b bs ih => exact ih (Memory.write_wf h)

/-- Storing a list lists no address outside the range stored to. -/
theorem Memory.mem_writeList {x : Host.Cell} {bs : List Byte}
    (h : x ∈ Memory.writeList d m a bs) : x ∈ m ∨ (a ≤ x.1 ∧ x.1 < a + bs.length) := by
  induction bs generalizing m a with
  | nil => exact .inl h
  | cons b bs ih =>
    rcases ih h with h | h
    · rcases Memory.mem_write h with h | rfl
      · exact .inl h
      · exact .inr ⟨le_refl a, by simp⟩
    · exact .inr ⟨by omega, by simp only [List.length_cons]; omega⟩

/-- Storing a list leaves every address outside its range alone. -/
theorem Memory.read_writeList_outside {a' : Nat} {bs : List Byte}
    (h : a' < a ∨ a + bs.length ≤ a') :
    Memory.read d (Memory.writeList d m a bs) a' = Memory.read d m a' := by
  induction bs generalizing m a with
  | nil => rfl
  | cons b bs ih =>
    simp only [List.length_cons] at h
    exact (ih (by omega)).trans (Memory.read_write_other (by omega))

/-- Inside its range a stored list reads back. -/
theorem Memory.read_writeList_inside (hm : Memory.wf d m) {bs : List Byte} {j : Nat}
    (h : j < bs.length) : Memory.read d (Memory.writeList d m a bs) (a + j) = bs[j] := by
  induction bs generalizing m a j with
  | nil => simp at h
  | cons b bs ih =>
    rcases j with _ | j
    · exact (Memory.read_writeList_outside (m := Memory.write d m a b) (a := a + 1) (.inl (by omega))).trans
        (Memory.read_write_same hm)
    · have := ih (Memory.write_wf (a := a) (b := b) hm) (a := a + 1) (j := j) (by simpa using h)
      rw [show a + (j + 1) = a + 1 + j by omega]
      simpa [Memory.writeList] using this

/-- Equal canonical memories are equal lists: the canonical form loses nothing and adds nothing. -/
theorem Memory.ext_of_wf {n : List Host.Cell} (hm : Memory.wf d m) (hn : Memory.wf d n)
    (h : ∀ a, Memory.read d m a = Memory.read d n a) : m = n := by
  have key : ∀ {m n : List Host.Cell}, Memory.wf d m → (∀ a, Memory.read d m a = Memory.read d n a) →
      ∀ x ∈ m, ∃ y ∈ n, y.1 = x.1 := by
    intro m n hm h x hx
    by_contra hc
    push Not at hc
    have hr : Memory.read d n x.1 = d x.1 := Memory.read_of_not_mem hc
    have hx' : Memory.read d m x.1 = x.2 := by
      clear h
      induction m with
      | nil => simp at hx
      | cons y m ih =>
        obtain ⟨k, c⟩ := y
        obtain ⟨hk, -, hm'⟩ := Memory.wf_cons.1 hm
        rcases List.mem_cons.1 hx with rfl | hx
        · simp [Memory.read_cons]
        · rw [Memory.read_cons, if_neg (by have := hk x hx; omega)]
          exact ih hm' hx
    exact hm.2 x hx (by rw [← hx', h, hr])
  induction m generalizing n with
  | nil =>
    cases n with
    | nil => rfl
    | cons y n => exact absurd (key hn (fun a => (h a).symm) y (by simp)) (by simp)
  | cons x m ih =>
    cases n with
    | nil => exact absurd (key hm h x (by simp)) (by simp)
    | cons y n =>
      obtain ⟨k, c⟩ := x
      obtain ⟨l, e⟩ := y
      obtain ⟨hk, hc, hm'⟩ := Memory.wf_cons.1 hm
      obtain ⟨hl, he, hn'⟩ := Memory.wf_cons.1 hn
      have hkl : k = l := by
        obtain ⟨y, hy, e1⟩ := key hm h (k, c) (by simp)
        obtain ⟨z, hz, e2⟩ := key hn (fun a => (h a).symm) (l, e) (by simp)
        have h1 : l ≤ k := by
          rcases List.mem_cons.1 hy with rfl | hy
          · exact le_of_eq e1
          · have := hl y hy; simp only at e1; omega
        have h2 : k ≤ l := by
          rcases List.mem_cons.1 hz with rfl | hz
          · exact le_of_eq e2
          · have := hk z hz; simp only at e2; omega
        omega
      subst hkl
      have hce : c = e := by simpa [Memory.read_cons] using h k
      subst hce
      congr 1
      refine ih hm' hn' fun a => ?_
      by_cases ha : a = k
      · subst ha
        rw [Memory.read_of_not_mem fun x hx => by have := hk x hx; omega,
          Memory.read_of_not_mem fun x hx => by have := hl x hx; omega]
      · simpa [Memory.read_cons, ha] using h a

end Sys2Proof.Machine
end

