-- ==== Sys2Proof/Laws/State.lean ====
section
/-! SUPPORT. One lemma per field per named update of State, each true by definition, so that no proof
unfolds a record update; and what a register or memory read sees after each update. -/

namespace Sys2Proof.Machine

/-! ### setReg -/

@[simp] theorem State.setReg_params (s : State) (r : Nibble) (b : Byte) : (s.setReg r b).params = s.params := rfl
@[simp] theorem State.setReg_v (s : State) (r : Nibble) (b : Byte) : (s.setReg r b).v = s.v.set r.toNat b := rfl
@[simp] theorem State.setReg_index (s : State) (r : Nibble) (b : Byte) : (s.setReg r b).index = s.index := rfl
@[simp] theorem State.setReg_pc (s : State) (r : Nibble) (b : Byte) : (s.setReg r b).pc = s.pc := rfl
@[simp] theorem State.setReg_stack (s : State) (r : Nibble) (b : Byte) : (s.setReg r b).stack = s.stack := rfl
@[simp] theorem State.setReg_delay (s : State) (r : Nibble) (b : Byte) : (s.setReg r b).delay = s.delay := rfl
@[simp] theorem State.setReg_sound (s : State) (r : Nibble) (b : Byte) : (s.setReg r b).sound = s.sound := rfl
@[simp] theorem State.setReg_fb (s : State) (r : Nibble) (b : Byte) : (s.setReg r b).fb = s.fb := rfl
@[simp] theorem State.setReg_keys (s : State) (r : Nibble) (b : Byte) : (s.setReg r b).keys = s.keys := rfl
@[simp] theorem State.setReg_wait (s : State) (r : Nibble) (b : Byte) : (s.setReg r b).wait = s.wait := rfl
@[simp] theorem State.setReg_wreg (s : State) (r : Nibble) (b : Byte) : (s.setReg r b).wreg = s.wreg := rfl
@[simp] theorem State.setReg_fault (s : State) (r : Nibble) (b : Byte) : (s.setReg r b).fault = s.fault := rfl
@[simp] theorem State.setReg_mem (s : State) (r : Nibble) (b : Byte) : (s.setReg r b).mem = s.mem := rfl
@[simp] theorem State.setReg_loadReport (s : State) (r : Nibble) (b : Byte) : (s.setReg r b).loadReport = s.loadReport := rfl
@[simp] theorem State.setReg_inputs (s : State) (r : Nibble) (b : Byte) : (s.setReg r b).inputs = s.inputs := rfl
@[simp] theorem State.setReg_draws (s : State) (r : Nibble) (b : Byte) : (s.setReg r b).draws = s.draws := rfl
@[simp] theorem State.setReg_byte (s : State) (r : Nibble) (b : Byte) (n : Nat) : (s.setReg r b).byte n = s.byte n := rfl
@[simp] theorem State.setReg_outside (s : State) (r : Nibble) (b : Byte) (m n : Nat) : (s.setReg r b).outside m n = s.outside m n := rfl

/-! ### setIndex -/

@[simp] theorem State.setIndex_params (s : State) (a : Word) : (s.setIndex a).params = s.params := rfl
@[simp] theorem State.setIndex_v (s : State) (a : Word) : (s.setIndex a).v = s.v := rfl
@[simp] theorem State.setIndex_index (s : State) (a : Word) : (s.setIndex a).index = a := rfl
@[simp] theorem State.setIndex_pc (s : State) (a : Word) : (s.setIndex a).pc = s.pc := rfl
@[simp] theorem State.setIndex_stack (s : State) (a : Word) : (s.setIndex a).stack = s.stack := rfl
@[simp] theorem State.setIndex_delay (s : State) (a : Word) : (s.setIndex a).delay = s.delay := rfl
@[simp] theorem State.setIndex_sound (s : State) (a : Word) : (s.setIndex a).sound = s.sound := rfl
@[simp] theorem State.setIndex_fb (s : State) (a : Word) : (s.setIndex a).fb = s.fb := rfl
@[simp] theorem State.setIndex_keys (s : State) (a : Word) : (s.setIndex a).keys = s.keys := rfl
@[simp] theorem State.setIndex_wait (s : State) (a : Word) : (s.setIndex a).wait = s.wait := rfl
@[simp] theorem State.setIndex_wreg (s : State) (a : Word) : (s.setIndex a).wreg = s.wreg := rfl
@[simp] theorem State.setIndex_fault (s : State) (a : Word) : (s.setIndex a).fault = s.fault := rfl
@[simp] theorem State.setIndex_mem (s : State) (a : Word) : (s.setIndex a).mem = s.mem := rfl
@[simp] theorem State.setIndex_loadReport (s : State) (a : Word) : (s.setIndex a).loadReport = s.loadReport := rfl
@[simp] theorem State.setIndex_inputs (s : State) (a : Word) : (s.setIndex a).inputs = s.inputs := rfl
@[simp] theorem State.setIndex_draws (s : State) (a : Word) : (s.setIndex a).draws = s.draws := rfl
@[simp] theorem State.setIndex_byte (s : State) (a : Word) (n : Nat) : (s.setIndex a).byte n = s.byte n := rfl
@[simp] theorem State.setIndex_reg (s : State) (a : Word) (q : Nibble) : (s.setIndex a).reg q = s.reg q := rfl
@[simp] theorem State.setIndex_outside (s : State) (a : Word) (m n : Nat) : (s.setIndex a).outside m n = s.outside m n := rfl

/-! ### setKey -/

@[simp] theorem State.setKey_params (s : State) (k : Nibble) (b : Bool) : (s.setKey k b).params = s.params := rfl
@[simp] theorem State.setKey_v (s : State) (k : Nibble) (b : Bool) : (s.setKey k b).v = s.v := rfl
@[simp] theorem State.setKey_index (s : State) (k : Nibble) (b : Bool) : (s.setKey k b).index = s.index := rfl
@[simp] theorem State.setKey_pc (s : State) (k : Nibble) (b : Bool) : (s.setKey k b).pc = s.pc := rfl
@[simp] theorem State.setKey_stack (s : State) (k : Nibble) (b : Bool) : (s.setKey k b).stack = s.stack := rfl
@[simp] theorem State.setKey_delay (s : State) (k : Nibble) (b : Bool) : (s.setKey k b).delay = s.delay := rfl
@[simp] theorem State.setKey_sound (s : State) (k : Nibble) (b : Bool) : (s.setKey k b).sound = s.sound := rfl
@[simp] theorem State.setKey_fb (s : State) (k : Nibble) (b : Bool) : (s.setKey k b).fb = s.fb := rfl
@[simp] theorem State.setKey_keys (s : State) (k : Nibble) (b : Bool) : (s.setKey k b).keys = s.keys.set k.toNat b := rfl
@[simp] theorem State.setKey_wait (s : State) (k : Nibble) (b : Bool) : (s.setKey k b).wait = s.wait := rfl
@[simp] theorem State.setKey_wreg (s : State) (k : Nibble) (b : Bool) : (s.setKey k b).wreg = s.wreg := rfl
@[simp] theorem State.setKey_fault (s : State) (k : Nibble) (b : Bool) : (s.setKey k b).fault = s.fault := rfl
@[simp] theorem State.setKey_mem (s : State) (k : Nibble) (b : Bool) : (s.setKey k b).mem = s.mem := rfl
@[simp] theorem State.setKey_loadReport (s : State) (k : Nibble) (b : Bool) : (s.setKey k b).loadReport = s.loadReport := rfl
@[simp] theorem State.setKey_inputs (s : State) (k : Nibble) (b : Bool) : (s.setKey k b).inputs = s.inputs := rfl
@[simp] theorem State.setKey_draws (s : State) (k : Nibble) (b : Bool) : (s.setKey k b).draws = s.draws := rfl
@[simp] theorem State.setKey_byte (s : State) (k : Nibble) (b : Bool) (n : Nat) : (s.setKey k b).byte n = s.byte n := rfl
@[simp] theorem State.setKey_reg (s : State) (k : Nibble) (b : Bool) (q : Nibble) : (s.setKey k b).reg q = s.reg q := rfl
@[simp] theorem State.setKey_outside (s : State) (k : Nibble) (b : Bool) (m n : Nat) : (s.setKey k b).outside m n = s.outside m n := rfl

/-! ### setDelayValue -/

@[simp] theorem State.setDelayValue_params (s : State) (b : Byte) : (s.setDelayValue b).params = s.params := rfl
@[simp] theorem State.setDelayValue_v (s : State) (b : Byte) : (s.setDelayValue b).v = s.v := rfl
@[simp] theorem State.setDelayValue_index (s : State) (b : Byte) : (s.setDelayValue b).index = s.index := rfl
@[simp] theorem State.setDelayValue_pc (s : State) (b : Byte) : (s.setDelayValue b).pc = s.pc := rfl
@[simp] theorem State.setDelayValue_stack (s : State) (b : Byte) : (s.setDelayValue b).stack = s.stack := rfl
@[simp] theorem State.setDelayValue_delay (s : State) (b : Byte) : (s.setDelayValue b).delay = { s.delay with value := b } := rfl
@[simp] theorem State.setDelayValue_sound (s : State) (b : Byte) : (s.setDelayValue b).sound = s.sound := rfl
@[simp] theorem State.setDelayValue_fb (s : State) (b : Byte) : (s.setDelayValue b).fb = s.fb := rfl
@[simp] theorem State.setDelayValue_keys (s : State) (b : Byte) : (s.setDelayValue b).keys = s.keys := rfl
@[simp] theorem State.setDelayValue_wait (s : State) (b : Byte) : (s.setDelayValue b).wait = s.wait := rfl
@[simp] theorem State.setDelayValue_wreg (s : State) (b : Byte) : (s.setDelayValue b).wreg = s.wreg := rfl
@[simp] theorem State.setDelayValue_fault (s : State) (b : Byte) : (s.setDelayValue b).fault = s.fault := rfl
@[simp] theorem State.setDelayValue_mem (s : State) (b : Byte) : (s.setDelayValue b).mem = s.mem := rfl
@[simp] theorem State.setDelayValue_loadReport (s : State) (b : Byte) : (s.setDelayValue b).loadReport = s.loadReport := rfl
@[simp] theorem State.setDelayValue_inputs (s : State) (b : Byte) : (s.setDelayValue b).inputs = s.inputs := rfl
@[simp] theorem State.setDelayValue_draws (s : State) (b : Byte) : (s.setDelayValue b).draws = s.draws := rfl
@[simp] theorem State.setDelayValue_byte (s : State) (b : Byte) (n : Nat) : (s.setDelayValue b).byte n = s.byte n := rfl
@[simp] theorem State.setDelayValue_reg (s : State) (b : Byte) (q : Nibble) : (s.setDelayValue b).reg q = s.reg q := rfl
@[simp] theorem State.setDelayValue_outside (s : State) (b : Byte) (m n : Nat) : (s.setDelayValue b).outside m n = s.outside m n := rfl

/-! ### setSoundValue -/

@[simp] theorem State.setSoundValue_params (s : State) (b : Byte) : (s.setSoundValue b).params = s.params := rfl
@[simp] theorem State.setSoundValue_v (s : State) (b : Byte) : (s.setSoundValue b).v = s.v := rfl
@[simp] theorem State.setSoundValue_index (s : State) (b : Byte) : (s.setSoundValue b).index = s.index := rfl
@[simp] theorem State.setSoundValue_pc (s : State) (b : Byte) : (s.setSoundValue b).pc = s.pc := rfl
@[simp] theorem State.setSoundValue_stack (s : State) (b : Byte) : (s.setSoundValue b).stack = s.stack := rfl
@[simp] theorem State.setSoundValue_delay (s : State) (b : Byte) : (s.setSoundValue b).delay = s.delay := rfl
@[simp] theorem State.setSoundValue_sound (s : State) (b : Byte) : (s.setSoundValue b).sound = { s.sound with value := b } := rfl
@[simp] theorem State.setSoundValue_fb (s : State) (b : Byte) : (s.setSoundValue b).fb = s.fb := rfl
@[simp] theorem State.setSoundValue_keys (s : State) (b : Byte) : (s.setSoundValue b).keys = s.keys := rfl
@[simp] theorem State.setSoundValue_wait (s : State) (b : Byte) : (s.setSoundValue b).wait = s.wait := rfl
@[simp] theorem State.setSoundValue_wreg (s : State) (b : Byte) : (s.setSoundValue b).wreg = s.wreg := rfl
@[simp] theorem State.setSoundValue_fault (s : State) (b : Byte) : (s.setSoundValue b).fault = s.fault := rfl
@[simp] theorem State.setSoundValue_mem (s : State) (b : Byte) : (s.setSoundValue b).mem = s.mem := rfl
@[simp] theorem State.setSoundValue_loadReport (s : State) (b : Byte) : (s.setSoundValue b).loadReport = s.loadReport := rfl
@[simp] theorem State.setSoundValue_inputs (s : State) (b : Byte) : (s.setSoundValue b).inputs = s.inputs := rfl
@[simp] theorem State.setSoundValue_draws (s : State) (b : Byte) : (s.setSoundValue b).draws = s.draws := rfl
@[simp] theorem State.setSoundValue_byte (s : State) (b : Byte) (n : Nat) : (s.setSoundValue b).byte n = s.byte n := rfl
@[simp] theorem State.setSoundValue_reg (s : State) (b : Byte) (q : Nibble) : (s.setSoundValue b).reg q = s.reg q := rfl
@[simp] theorem State.setSoundValue_outside (s : State) (b : Byte) (m n : Nat) : (s.setSoundValue b).outside m n = s.outside m n := rfl

/-! ### enterWait -/

@[simp] theorem State.enterWait_params (s : State) (r : Nibble) : (s.enterWait r).params = s.params := rfl
@[simp] theorem State.enterWait_v (s : State) (r : Nibble) : (s.enterWait r).v = s.v := rfl
@[simp] theorem State.enterWait_index (s : State) (r : Nibble) : (s.enterWait r).index = s.index := rfl
@[simp] theorem State.enterWait_pc (s : State) (r : Nibble) : (s.enterWait r).pc = s.pc := rfl
@[simp] theorem State.enterWait_stack (s : State) (r : Nibble) : (s.enterWait r).stack = s.stack := rfl
@[simp] theorem State.enterWait_delay (s : State) (r : Nibble) : (s.enterWait r).delay = s.delay := rfl
@[simp] theorem State.enterWait_sound (s : State) (r : Nibble) : (s.enterWait r).sound = s.sound := rfl
@[simp] theorem State.enterWait_fb (s : State) (r : Nibble) : (s.enterWait r).fb = s.fb := rfl
@[simp] theorem State.enterWait_keys (s : State) (r : Nibble) : (s.enterWait r).keys = s.keys := rfl
@[simp] theorem State.enterWait_wait (s : State) (r : Nibble) : (s.enterWait r).wait = true := rfl
@[simp] theorem State.enterWait_wreg (s : State) (r : Nibble) : (s.enterWait r).wreg = r := rfl
@[simp] theorem State.enterWait_fault (s : State) (r : Nibble) : (s.enterWait r).fault = s.fault := rfl
@[simp] theorem State.enterWait_mem (s : State) (r : Nibble) : (s.enterWait r).mem = s.mem := rfl
@[simp] theorem State.enterWait_loadReport (s : State) (r : Nibble) : (s.enterWait r).loadReport = s.loadReport := rfl
@[simp] theorem State.enterWait_inputs (s : State) (r : Nibble) : (s.enterWait r).inputs = s.inputs := rfl
@[simp] theorem State.enterWait_draws (s : State) (r : Nibble) : (s.enterWait r).draws = s.draws := rfl
@[simp] theorem State.enterWait_byte (s : State) (r : Nibble) (n : Nat) : (s.enterWait r).byte n = s.byte n := rfl
@[simp] theorem State.enterWait_reg (s : State) (r : Nibble) (q : Nibble) : (s.enterWait r).reg q = s.reg q := rfl
@[simp] theorem State.enterWait_outside (s : State) (r : Nibble) (m n : Nat) : (s.enterWait r).outside m n = s.outside m n := rfl

/-! ### setFb -/

@[simp] theorem State.setFb_params (s : State) (fb : Frame) : (s.setFb fb).params = s.params := rfl
@[simp] theorem State.setFb_v (s : State) (fb : Frame) : (s.setFb fb).v = s.v := rfl
@[simp] theorem State.setFb_index (s : State) (fb : Frame) : (s.setFb fb).index = s.index := rfl
@[simp] theorem State.setFb_pc (s : State) (fb : Frame) : (s.setFb fb).pc = s.pc := rfl
@[simp] theorem State.setFb_stack (s : State) (fb : Frame) : (s.setFb fb).stack = s.stack := rfl
@[simp] theorem State.setFb_delay (s : State) (fb : Frame) : (s.setFb fb).delay = s.delay := rfl
@[simp] theorem State.setFb_sound (s : State) (fb : Frame) : (s.setFb fb).sound = s.sound := rfl
@[simp] theorem State.setFb_fb (s : State) (fb : Frame) : (s.setFb fb).fb = fb := rfl
@[simp] theorem State.setFb_keys (s : State) (fb : Frame) : (s.setFb fb).keys = s.keys := rfl
@[simp] theorem State.setFb_wait (s : State) (fb : Frame) : (s.setFb fb).wait = s.wait := rfl
@[simp] theorem State.setFb_wreg (s : State) (fb : Frame) : (s.setFb fb).wreg = s.wreg := rfl
@[simp] theorem State.setFb_fault (s : State) (fb : Frame) : (s.setFb fb).fault = s.fault := rfl
@[simp] theorem State.setFb_mem (s : State) (fb : Frame) : (s.setFb fb).mem = s.mem := rfl
@[simp] theorem State.setFb_loadReport (s : State) (fb : Frame) : (s.setFb fb).loadReport = s.loadReport := rfl
@[simp] theorem State.setFb_inputs (s : State) (fb : Frame) : (s.setFb fb).inputs = s.inputs := rfl
@[simp] theorem State.setFb_draws (s : State) (fb : Frame) : (s.setFb fb).draws = s.draws := rfl
@[simp] theorem State.setFb_byte (s : State) (fb : Frame) (n : Nat) : (s.setFb fb).byte n = s.byte n := rfl
@[simp] theorem State.setFb_reg (s : State) (fb : Frame) (q : Nibble) : (s.setFb fb).reg q = s.reg q := rfl
@[simp] theorem State.setFb_outside (s : State) (fb : Frame) (m n : Nat) : (s.setFb fb).outside m n = s.outside m n := rfl

/-! ### countDraw -/

@[simp] theorem State.countDraw_params (s : State) : (s.countDraw).params = s.params := rfl
@[simp] theorem State.countDraw_v (s : State) : (s.countDraw).v = s.v := rfl
@[simp] theorem State.countDraw_index (s : State) : (s.countDraw).index = s.index := rfl
@[simp] theorem State.countDraw_pc (s : State) : (s.countDraw).pc = s.pc := rfl
@[simp] theorem State.countDraw_stack (s : State) : (s.countDraw).stack = s.stack := rfl
@[simp] theorem State.countDraw_delay (s : State) : (s.countDraw).delay = s.delay := rfl
@[simp] theorem State.countDraw_sound (s : State) : (s.countDraw).sound = s.sound := rfl
@[simp] theorem State.countDraw_fb (s : State) : (s.countDraw).fb = s.fb := rfl
@[simp] theorem State.countDraw_keys (s : State) : (s.countDraw).keys = s.keys := rfl
@[simp] theorem State.countDraw_wait (s : State) : (s.countDraw).wait = s.wait := rfl
@[simp] theorem State.countDraw_wreg (s : State) : (s.countDraw).wreg = s.wreg := rfl
@[simp] theorem State.countDraw_fault (s : State) : (s.countDraw).fault = s.fault := rfl
@[simp] theorem State.countDraw_mem (s : State) : (s.countDraw).mem = s.mem := rfl
@[simp] theorem State.countDraw_loadReport (s : State) : (s.countDraw).loadReport = s.loadReport := rfl
@[simp] theorem State.countDraw_inputs (s : State) : (s.countDraw).inputs = s.inputs := rfl
@[simp] theorem State.countDraw_draws (s : State) : (s.countDraw).draws = s.draws + 1 := rfl
@[simp] theorem State.countDraw_byte (s : State) (n : Nat) : (s.countDraw).byte n = s.byte n := rfl
@[simp] theorem State.countDraw_reg (s : State) (q : Nibble) : (s.countDraw).reg q = s.reg q := rfl
@[simp] theorem State.countDraw_outside (s : State) (m n : Nat) : (s.countDraw).outside m n = s.outside m n := rfl

/-! ### storeBytes -/

@[simp] theorem State.storeBytes_params (s : State) (a : Nat) (bs : List Byte) : (s.storeBytes a bs).params = s.params := rfl
@[simp] theorem State.storeBytes_v (s : State) (a : Nat) (bs : List Byte) : (s.storeBytes a bs).v = s.v := rfl
@[simp] theorem State.storeBytes_index (s : State) (a : Nat) (bs : List Byte) : (s.storeBytes a bs).index = s.index := rfl
@[simp] theorem State.storeBytes_pc (s : State) (a : Nat) (bs : List Byte) : (s.storeBytes a bs).pc = s.pc := rfl
@[simp] theorem State.storeBytes_stack (s : State) (a : Nat) (bs : List Byte) : (s.storeBytes a bs).stack = s.stack := rfl
@[simp] theorem State.storeBytes_delay (s : State) (a : Nat) (bs : List Byte) : (s.storeBytes a bs).delay = s.delay := rfl
@[simp] theorem State.storeBytes_sound (s : State) (a : Nat) (bs : List Byte) : (s.storeBytes a bs).sound = s.sound := rfl
@[simp] theorem State.storeBytes_fb (s : State) (a : Nat) (bs : List Byte) : (s.storeBytes a bs).fb = s.fb := rfl
@[simp] theorem State.storeBytes_keys (s : State) (a : Nat) (bs : List Byte) : (s.storeBytes a bs).keys = s.keys := rfl
@[simp] theorem State.storeBytes_wait (s : State) (a : Nat) (bs : List Byte) : (s.storeBytes a bs).wait = s.wait := rfl
@[simp] theorem State.storeBytes_wreg (s : State) (a : Nat) (bs : List Byte) : (s.storeBytes a bs).wreg = s.wreg := rfl
@[simp] theorem State.storeBytes_fault (s : State) (a : Nat) (bs : List Byte) : (s.storeBytes a bs).fault = s.fault := rfl
@[simp] theorem State.storeBytes_mem (s : State) (a : Nat) (bs : List Byte) : (s.storeBytes a bs).mem = Memory.writeList s.params.resetByte s.mem a bs := rfl
@[simp] theorem State.storeBytes_loadReport (s : State) (a : Nat) (bs : List Byte) : (s.storeBytes a bs).loadReport = s.loadReport := rfl
@[simp] theorem State.storeBytes_inputs (s : State) (a : Nat) (bs : List Byte) : (s.storeBytes a bs).inputs = s.inputs := rfl
@[simp] theorem State.storeBytes_draws (s : State) (a : Nat) (bs : List Byte) : (s.storeBytes a bs).draws = s.draws := rfl
@[simp] theorem State.storeBytes_reg (s : State) (a : Nat) (bs : List Byte) (q : Nibble) : (s.storeBytes a bs).reg q = s.reg q := rfl
@[simp] theorem State.storeBytes_outside (s : State) (a : Nat) (bs : List Byte) (m n : Nat) : (s.storeBytes a bs).outside m n = s.outside m n := rfl

/-! ### loadRegs -/

@[simp] theorem State.loadRegs_params (s : State) (bs : List Byte) : (s.loadRegs bs).params = s.params := rfl
@[simp] theorem State.loadRegs_v (s : State) (bs : List Byte) : (s.loadRegs bs).v = loadFrom s.v 0 bs := rfl
@[simp] theorem State.loadRegs_index (s : State) (bs : List Byte) : (s.loadRegs bs).index = s.index := rfl
@[simp] theorem State.loadRegs_pc (s : State) (bs : List Byte) : (s.loadRegs bs).pc = s.pc := rfl
@[simp] theorem State.loadRegs_stack (s : State) (bs : List Byte) : (s.loadRegs bs).stack = s.stack := rfl
@[simp] theorem State.loadRegs_delay (s : State) (bs : List Byte) : (s.loadRegs bs).delay = s.delay := rfl
@[simp] theorem State.loadRegs_sound (s : State) (bs : List Byte) : (s.loadRegs bs).sound = s.sound := rfl
@[simp] theorem State.loadRegs_fb (s : State) (bs : List Byte) : (s.loadRegs bs).fb = s.fb := rfl
@[simp] theorem State.loadRegs_keys (s : State) (bs : List Byte) : (s.loadRegs bs).keys = s.keys := rfl
@[simp] theorem State.loadRegs_wait (s : State) (bs : List Byte) : (s.loadRegs bs).wait = s.wait := rfl
@[simp] theorem State.loadRegs_wreg (s : State) (bs : List Byte) : (s.loadRegs bs).wreg = s.wreg := rfl
@[simp] theorem State.loadRegs_fault (s : State) (bs : List Byte) : (s.loadRegs bs).fault = s.fault := rfl
@[simp] theorem State.loadRegs_mem (s : State) (bs : List Byte) : (s.loadRegs bs).mem = s.mem := rfl
@[simp] theorem State.loadRegs_loadReport (s : State) (bs : List Byte) : (s.loadRegs bs).loadReport = s.loadReport := rfl
@[simp] theorem State.loadRegs_inputs (s : State) (bs : List Byte) : (s.loadRegs bs).inputs = s.inputs := rfl
@[simp] theorem State.loadRegs_draws (s : State) (bs : List Byte) : (s.loadRegs bs).draws = s.draws := rfl
@[simp] theorem State.loadRegs_byte (s : State) (bs : List Byte) (n : Nat) : (s.loadRegs bs).byte n = s.byte n := rfl
@[simp] theorem State.loadRegs_outside (s : State) (bs : List Byte) (m n : Nat) : (s.loadRegs bs).outside m n = s.outside m n := rfl

/-! ### advanceTimers -/

@[simp] theorem State.advanceTimers_params (s : State) (dt : Nat) : (s.advanceTimers dt).params = s.params := rfl
@[simp] theorem State.advanceTimers_v (s : State) (dt : Nat) : (s.advanceTimers dt).v = s.v := rfl
@[simp] theorem State.advanceTimers_index (s : State) (dt : Nat) : (s.advanceTimers dt).index = s.index := rfl
@[simp] theorem State.advanceTimers_pc (s : State) (dt : Nat) : (s.advanceTimers dt).pc = s.pc := rfl
@[simp] theorem State.advanceTimers_stack (s : State) (dt : Nat) : (s.advanceTimers dt).stack = s.stack := rfl
@[simp] theorem State.advanceTimers_delay (s : State) (dt : Nat) : (s.advanceTimers dt).delay = timerTick s.params.threshold s.delay dt := rfl
@[simp] theorem State.advanceTimers_sound (s : State) (dt : Nat) : (s.advanceTimers dt).sound = timerTick s.params.threshold s.sound dt := rfl
@[simp] theorem State.advanceTimers_fb (s : State) (dt : Nat) : (s.advanceTimers dt).fb = s.fb := rfl
@[simp] theorem State.advanceTimers_keys (s : State) (dt : Nat) : (s.advanceTimers dt).keys = s.keys := rfl
@[simp] theorem State.advanceTimers_wait (s : State) (dt : Nat) : (s.advanceTimers dt).wait = s.wait := rfl
@[simp] theorem State.advanceTimers_wreg (s : State) (dt : Nat) : (s.advanceTimers dt).wreg = s.wreg := rfl
@[simp] theorem State.advanceTimers_fault (s : State) (dt : Nat) : (s.advanceTimers dt).fault = s.fault := rfl
@[simp] theorem State.advanceTimers_mem (s : State) (dt : Nat) : (s.advanceTimers dt).mem = s.mem := rfl
@[simp] theorem State.advanceTimers_loadReport (s : State) (dt : Nat) : (s.advanceTimers dt).loadReport = s.loadReport := rfl
@[simp] theorem State.advanceTimers_inputs (s : State) (dt : Nat) : (s.advanceTimers dt).inputs = s.inputs := rfl
@[simp] theorem State.advanceTimers_draws (s : State) (dt : Nat) : (s.advanceTimers dt).draws = s.draws := rfl
@[simp] theorem State.advanceTimers_byte (s : State) (dt : Nat) (n : Nat) : (s.advanceTimers dt).byte n = s.byte n := rfl
@[simp] theorem State.advanceTimers_reg (s : State) (dt : Nat) (q : Nibble) : (s.advanceTimers dt).reg q = s.reg q := rfl
@[simp] theorem State.advanceTimers_outside (s : State) (dt : Nat) (m n : Nat) : (s.advanceTimers dt).outside m n = s.outside m n := rfl

/-! ### Registers -/

/-- Reading a register after writing one. -/
theorem State.setReg_reg (s : State) (r q : Nibble) (b : Byte) :
    (s.setReg r b).reg q = if q = r then b else s.reg q := by
  simp only [State.reg, State.setReg, Vector.getElem_set, BitVec.toNat_inj, eq_comm]

@[simp] theorem State.setReg_reg_same (s : State) (r : Nibble) (b : Byte) :
    (s.setReg r b).reg r = b := by simp [State.setReg_reg]

theorem State.setReg_reg_other (s : State) (r q : Nibble) (b : Byte) (h : q ≠ r) :
    (s.setReg r b).reg q = s.reg q := by simp [State.setReg_reg, h]

/-- Reading a key flag after writing one. -/
theorem State.setKey_key (s : State) (k q : Nibble) (b : Bool) :
    (s.setKey k b).key q = if q = k then b else s.key q := by
  simp only [State.key, State.setKey, Vector.getElem_set, BitVec.toNat_inj, eq_comm]

/-- Two register files that agree at every register number are equal. -/
theorem State.v_ext {s t : State} (h : ∀ r, s.reg r = t.reg r) : s.v = t.v := by
  refine Vector.ext fun j hj => ?_
  have := h (BitVec.ofNat 4 j)
  simpa [State.reg, Nat.mod_eq_of_lt hj] using this

end Sys2Proof.Machine
end

