-- ==== Sys2Proof/Laws/Ops.lean ====
section
/-! SUPPORT. What each shared operation can do, said once; later proofs cite these and do not unfold the
operations. -/

namespace Sys2Proof.Machine

/-! ### Writing pc (30_encoding.md R82) -/

theorem setPc_of_le {n : Nat} {s : State} (h : n ≤ 0xFFF) :
    setPc n s = .next { s with pc := BitVec.ofNat 12 n } := by
  simp [setPc, Nat.not_lt.2 h]

theorem setPc_of_lt {n : Nat} {s : State} (h : 0xFFF < n) :
    setPc n s = .next { s with fault := some (.memoryBoundsViolation .pcRange n 2) } := by
  simp [setPc, raise, h]

/-- A write of pc answers one of two next states. -/
theorem setPc_cases (n : Nat) (s : State) :
    (n ≤ 0xFFF ∧ setPc n s = .next { s with pc := BitVec.ofNat 12 n }) ∨
    (0xFFF < n ∧ setPc n s = .next { s with fault := some (.memoryBoundsViolation .pcRange n 2) }) := by
  rcases Nat.lt_or_ge 0xFFF n with h | h
  · exact .inr ⟨h, setPc_of_lt h⟩
  · exact .inl ⟨h, setPc_of_le h⟩

/-- Advancing by `k` inside the 12-bit range adds `k` to pc. -/
theorem advancePc_of_le {k : Nat} {s : State} (h : s.pc.toNat + k ≤ 0xFFF) :
    advancePc k s = .next { s with pc := s.pc + BitVec.ofNat 12 k } := by
  rw [advancePc, setPc_of_le h]
  have e : BitVec.ofNat 12 (s.pc.toNat + k) = s.pc + BitVec.ofNat 12 k := by
    simp [BitVec.ofNat_add]
  rw [e]

/-- Advancing past the 12-bit range raises and keeps pc. -/
theorem advancePc_of_lt {k : Nat} {s : State} (h : 0xFFF < s.pc.toNat + k) :
    advancePc k s =
      .next { s with fault := some (.memoryBoundsViolation .pcRange (s.pc.toNat + k) 2) } :=
  setPc_of_lt h

theorem advancePc_cases (k : Nat) (s : State) :
    (s.pc.toNat + k ≤ 0xFFF ∧ advancePc k s = .next { s with pc := s.pc + BitVec.ofNat 12 k }) ∨
    (0xFFF < s.pc.toNat + k ∧ advancePc k s =
      .next { s with fault := some (.memoryBoundsViolation .pcRange (s.pc.toNat + k) 2) }) := by
  rcases Nat.lt_or_ge 0xFFF (s.pc.toNat + k) with h | h
  · exact .inr ⟨h, advancePc_of_lt h⟩
  · exact .inl ⟨h, advancePc_of_le h⟩

/-- A skip advances by 4 or by 2. -/
theorem skipIf_eq (c : Bool) (s : State) : skipIf c s = advancePc (if c then 4 else 2) s := rfl

/-! ### Memory primitives (20_memory.md R51) -/

theorem State.outside_iff {s : State} {a n : Nat} :
    s.outside a n = true ↔ s.params.memSize < a + n := by simp [State.outside]

theorem State.memRead_of_le {s : State} {a n : Nat} (h : a + n ≤ s.params.memSize) :
    s.memRead a n = some ((List.range n).map fun j => s.byte (a + j)) := by
  simp [State.memRead, State.outside, Nat.not_lt.2 h]

theorem State.memRead_of_lt {s : State} {a n : Nat} (h : s.params.memSize < a + n) :
    s.memRead a n = none := by
  simp [State.memRead, State.outside, h]

theorem State.memWrite_of_le {s : State} {a : Nat} {bs : List Byte}
    (h : a + bs.length ≤ s.params.memSize) : s.memWrite a bs = some (s.storeBytes a bs) := by
  simp [State.memWrite, State.outside, Nat.not_lt.2 h]

theorem State.memWrite_of_lt {s : State} {a : Nat} {bs : List Byte}
    (h : s.params.memSize < a + bs.length) : s.memWrite a bs = none := by
  simp [State.memWrite, State.outside, h]

/-- A store leaves every address outside its range alone. -/
theorem State.storeBytes_byte_outside {s : State} {a a' : Nat} {bs : List Byte}
    (h : a' < a ∨ a + bs.length ≤ a') : (s.storeBytes a bs).byte a' = s.byte a' :=
  Memory.read_writeList_outside h

/-- Inside its range a store reads back, in a canonical memory. -/
theorem State.storeBytes_byte_inside {s : State} {a j : Nat} {bs : List Byte}
    (hm : Memory.wf s.params.resetByte s.mem) (h : j < bs.length) :
    (s.storeBytes a bs).byte (a + j) = bs[j] :=
  Memory.read_writeList_inside hm h

/-- A store inside memory keeps the canonical form and the bounds. -/
theorem State.storeBytes_memoryFits {s : State} {a : Nat} {bs : List Byte} (h : s.memoryFits)
    (hb : a + bs.length ≤ s.params.memSize) : (s.storeBytes a bs).memoryFits := by
  refine ⟨Memory.writeList_wf h.1 bs, fun c hc => ?_⟩
  rcases Memory.mem_writeList hc with hc | hc
  · exact h.2 c hc
  · simp only [State.storeBytes_params]; omega

/-! ### The call stack (10_state.md R25) -/

theorem State.push_of_not_full {s : State} {a : Addr}
    (h : s.params.stackDepth ≠ some s.stack.length) :
    s.push a = some { s with stack := s.stack ++ [a] } := by
  simp [State.push, State.stackFull, h]

theorem State.push_of_full {s : State} {a : Addr} (h : s.params.stackDepth = some s.stack.length) :
    s.push a = none := by
  simp [State.push, State.stackFull, h]

theorem State.pop_append {s : State} {l : List Addr} {a : Addr} (h : s.stack = l ++ [a]) :
    s.pop = some (a, { s with stack := l }) := by
  simp [State.pop, h]

theorem State.pop_nil {s : State} (h : s.stack = []) : s.pop = none := by
  simp [State.pop, h]

/-- A pop answers nothing on an empty stack, else the last element and the rest. -/
theorem State.pop_cases (s : State) :
    (s.stack = [] ∧ s.pop = none) ∨
    ∃ l a, s.stack = l ++ [a] ∧ s.pop = some (a, { s with stack := l }) := by
  rcases List.eq_nil_or_concat s.stack with h | ⟨l, a, h⟩
  · exact .inl ⟨h, State.pop_nil h⟩
  · rw [List.concat_eq_append] at h
    exact .inr ⟨l, a, h, State.pop_append h⟩

/-! ### Fetch (30_encoding.md R71) -/

theorem State.fetch_of_le {s : State} (h : s.pc.toNat + 2 ≤ s.params.memSize) :
    s.fetch = some (wordOfBytes (s.byte s.pc.toNat) (s.byte (s.pc.toNat + 1))) := by
  simp [State.fetch, State.outside, Nat.not_lt.2 h]

theorem State.fetch_of_lt {s : State} (h : s.params.memSize < s.pc.toNat + 2) : s.fetch = none := by
  simp [State.fetch, State.outside, h]

/-! ### Block loads (44_ixii_key_timer_index.md R151) -/

theorem loadFrom_getElem (v : Vector Byte 16) (j : Nat) (bs : List Byte) (i : Nat) (hi : i < 16) :
    (loadFrom v j bs)[i] = if h : j ≤ i ∧ i - j < bs.length then bs[i - j]'h.2 else v[i] := by
  induction bs generalizing v j with
  | nil => simp [loadFrom]
  | cons b bs ih =>
    rw [loadFrom, ih]
    by_cases h1 : j + 1 ≤ i
    · have e : i - j = (i - (j + 1)) + 1 := by omega
      by_cases h2 : i - (j + 1) < bs.length
      · have : j ≤ i ∧ i - j < (b :: bs).length := ⟨by omega, by simp; omega⟩
        simp [h1, h2, this, e]
      · have : ¬ (j ≤ i ∧ i - j < (b :: bs).length) := by simp; omega
        simp only [h1, h2, this, and_false, dite_false]
        rw [Vector.getElem_setIfInBounds, if_neg (by omega)]
    · by_cases h3 : i = j
      · subst h3
        simp [h1]
      · have : ¬ (j ≤ i ∧ i - j < (b :: bs).length) := by omega
        simp only [h1, this, false_and, dite_false]
        rw [Vector.getElem_setIfInBounds, if_neg (by omega)]

/-- A block load gives `V[r]` the r-th byte and keeps the registers past the bytes. -/
theorem State.loadRegs_reg (s : State) (bs : List Byte) (r : Nibble) :
    (s.loadRegs bs).reg r = (bs[r.toNat]?).getD (s.reg r) := by
  rw [State.reg, State.loadRegs, loadFrom_getElem]
  by_cases h : r.toNat < bs.length <;> simp [h, State.reg]

/-! ### The timers and the key scan (60_exceptions.md R182, R188) -/

theorem timerTick_of_lt {th dt : Nat} {t : Timer} (h : t.elapsed + dt < th) :
    timerTick th t dt = { t with elapsed := t.elapsed + dt } := by
  simp [timerTick, Nat.not_le.2 h]

theorem timerTick_of_le {th dt : Nat} {t : Timer} (h : th ≤ t.elapsed + dt) :
    timerTick th t dt =
      { value := if 0 < t.value.toNat then t.value - 1#8 else t.value
        elapsed := t.elapsed + dt - th } := by
  simp [timerTick, h]

/-- A scan changes nothing while no key is down. -/
theorem State.scanKeys_of_none {s : State} (h : ∀ k, s.key k = false) : s.scanKeys = s := by
  have : s.keys.toList.findIdx? id = none := by
    rw [List.findIdx?_eq_none_iff]
    intro b hb
    obtain ⟨j, hj, rfl⟩ := List.getElem_of_mem hb
    have hj' : j < 16 := by simpa using hj
    have := h (BitVec.ofNat 4 j)
    simpa [State.key, Nat.mod_eq_of_lt hj'] using this
  simp [State.scanKeys, this]

/-- A scan takes the lowest pressed key and ends the wait. -/
theorem State.scanKeys_of_lowest {s : State} {k : Nibble} (hk : s.key k = true)
    (hl : ∀ j, j.toNat < k.toNat → s.key j = false) :
    s.scanKeys = { s.setReg s.wreg (k.setWidth 8) with wait := false } := by
  have : s.keys.toList.findIdx? id = some k.toNat := by
    rw [List.findIdx?_eq_some_iff_getElem]
    refine ⟨by simpa using k.isLt, by simpa [State.key] using hk, fun j hj => ?_⟩
    have hj' : j < 16 := by have := k.isLt; omega
    have := hl (BitVec.ofNat 4 j) (by simpa [Nat.mod_eq_of_lt hj'] using hj)
    simpa [State.key, Nat.mod_eq_of_lt hj'] using this
  simp [State.scanKeys, this]

/-- Either no key is down or there is a lowest one. -/
theorem State.no_key_or_lowest (s : State) :
    (∀ k, s.key k = false) ∨
    ∃ k, s.key k = true ∧ ∀ j, j.toNat < k.toNat → s.key j = false := by
  by_cases h : ∃ n, ∃ hn : n < 16, s.keys[n] = true
  · refine .inr ⟨BitVec.ofNat 4 (Nat.find h), ?_, fun j hj => ?_⟩
    · obtain ⟨hn, hk⟩ := Nat.find_spec h
      simpa [State.key, Nat.mod_eq_of_lt hn] using hk
    · obtain ⟨hn, -⟩ := Nat.find_spec h
      have hj' : j.toNat < Nat.find h := by simpa [Nat.mod_eq_of_lt hn] using hj
      have := Nat.find_min h hj'
      simpa [State.key] using fun e => this ⟨j.isLt, e⟩
  · refine .inl fun k => ?_
    simpa [State.key] using fun e => h ⟨k.toNat, k.isLt, e⟩

/-- What a scan can do. -/
theorem State.scanKeys_cases (s : State) :
    s.scanKeys = s ∨ ∃ k : Nibble, s.key k = true ∧
      s.scanKeys = { s.setReg s.wreg (k.setWidth 8) with wait := false } := by
  rcases s.no_key_or_lowest with h | ⟨k, hk, hl⟩
  · exact .inl (State.scanKeys_of_none h)
  · exact .inr ⟨k, hk, State.scanKeys_of_lowest hk hl⟩

/-! ### The tick (60_exceptions.md R180) -/

theorem tickEvent_enabled {s : State} (h : s.fault = none) (dt : Nat) : tickEvent dt s = tick dt s := by
  simp [tickEvent, h]

theorem execEvent_enabled {s : State} (h : s.fault = none) (hw : s.wait = false) :
    execEvent s = execOne s := by
  simp [execEvent, h, hw]

/-- A running machine's tick advances the timers and runs `IPT` instructions. -/
theorem tick_running {s : State} (h : s.wait = false) (dt : Nat) :
    tick dt s = execMany s.params.ipt (s.advanceTimers dt) := by
  simp [tick, State.beforeExec, h]

/-- A waiting machine's tick with no key down advances the timers. -/
theorem tick_waiting {s : State} (h : s.wait = true) (hk : ∀ k, s.key k = false) (dt : Nat) :
    tick dt s = .next (s.advanceTimers dt) := by
  have e : (s.advanceTimers dt).scanKeys = s.advanceTimers dt := State.scanKeys_of_none hk
  simp [tick, State.beforeExec, h, e]

/-- A waiting machine's tick takes the lowest pressed key and runs `IPT` instructions. -/
theorem tick_waking {s : State} {k : Nibble} (h : s.wait = true) (hk : s.key k = true)
    (hl : ∀ j, j.toNat < k.toNat → s.key j = false) (dt : Nat) :
    tick dt s = execMany s.params.ipt
      { (s.advanceTimers dt).setReg s.wreg (k.setWidth 8) with wait := false } := by
  have e : (s.advanceTimers dt).scanKeys =
      { (s.advanceTimers dt).setReg s.wreg (k.setWidth 8) with wait := false } :=
    State.scanKeys_of_lowest hk hl
  simp [tick, State.beforeExec, h, e]

/-- One instruction is the whole of a run of one. -/
theorem execMany_one (s : State) : execMany 1 s = execOne s := by
  simp only [execMany]
  split <;> simp_all

/-- What a run of several instructions can do after its first. -/
theorem execMany_succ_next {n : Nat} {s t : State} (h : execOne s = .next t) :
    execMany (n + 1) s = if t.fault.isSome || t.wait then .next t else execMany n t := by
  simp only [execMany, h]

/-! ### Events -/

theorem State.nextEvent_cons {s : State} {e : Event} {l : List Event} (h : s.inputs = e :: l) :
    s.nextEvent = (e, { s with inputs := l }) := by
  simp [State.nextEvent, h]

theorem State.nextEvent_nil {s : State} (h : s.inputs = []) :
    s.nextEvent = (.tick (Config.freeDt s.draws), s.countDraw) := by
  simp [State.nextEvent, h]

/-- A step with a pending event handles that event. -/
theorem step_cons {s : State} {e : Event} {l : List Event} (h : s.inputs = e :: l) :
    step s = handle e { s with inputs := l } := by
  simp [step, runNextEvent, State.nextEvent_cons h]

/-- A step with none pending is a tick after a free amount of time. -/
theorem step_nil {s : State} (h : s.inputs = []) :
    step s = tickEvent (Config.freeDt s.draws) s.countDraw := by
  simp [step, runNextEvent, State.nextEvent_nil h, handle]

/-- A step whose next event is a tick, pending or free, is that tick. -/
theorem step_tickTaken {s t : State} {dt : Nat} (h : s.tickTaken dt t) : step s = tickEvent dt t := by
  rcases h with ⟨_, h, rfl⟩ | ⟨h, rfl, rfl⟩
  · rw [step_cons h]; rfl
  · rw [step_nil h]; rfl

/-- Taking a tick from the events changes nothing of the machine. -/
theorem State.tickTaken_eq {s t : State} {dt : Nat} (h : s.tickTaken dt t) :
    t = { s with inputs := t.inputs, draws := t.draws } := by
  rcases h with ⟨_, _, rfl⟩ | ⟨_, _, rfl⟩ <;> rfl

end Sys2Proof.Machine
end

