-- ==== Sys2Proof/Laws/PerInstr.lean ====
section
/-! SUPPORT. A statement about every instruction as syntax, with one lemma per constructor: its operand
fields are exactly those of its pattern and each value fits its bit width (30_encoding.md R75, R84). -/

namespace Sys2Proof.Laws.FieldsFit

/-- The instruction passes the check of WellFormed.lean. -/
def Statement (i : Instr) : Prop := i.wellFormed = true

theorem addr_fits (a : Addr) : Field.nnn.fits a.toNat = true :=
  decide_eq_true a.isLt

theorem byte_fits (k : Byte) : Field.kk.fits k.toNat = true :=
  decide_eq_true k.isLt

theorem x_fits (x : Nibble) : Field.x.fits x.toNat = true :=
  decide_eq_true x.isLt

theorem y_fits (y : Nibble) : Field.y.fits y.toNat = true :=
  decide_eq_true y.isLt

theorem n_fits (n : Nibble) : Field.n.fits n.toNat = true :=
  decide_eq_true n.isLt

theorem of_nnn (a : Addr) : wellFormedFields .innn [(.nnn, a.toNat)] = true := by
  simp [wellFormedFields, Pattern.uses, addr_fits]

theorem of_x_kk (x : Nibble) (k : Byte) :
    wellFormedFields .ixkk [(.x, x.toNat), (.kk, k.toNat)] = true := by
  simp [wellFormedFields, Pattern.uses, x_fits, byte_fits]

theorem of_x_y (x y : Nibble) : wellFormedFields .ixyi [(.x, x.toNat), (.y, y.toNat)] = true := by
  simp [wellFormedFields, Pattern.uses, x_fits, y_fits]

theorem of_x (x : Nibble) : wellFormedFields .ixii [(.x, x.toNat)] = true := by
  simp [wellFormedFields, Pattern.uses, x_fits]

theorem of_x_y_n (x y n : Nibble) :
    wellFormedFields .ixyn [(.x, x.toNat), (.y, y.toNat), (.n, n.toNat)] = true := by
  simp [wellFormedFields, Pattern.uses, x_fits, y_fits, n_fits]

theorem cls : Statement .cls := rfl
theorem ret : Statement .ret := rfl
theorem jp (a : Addr) : Statement (.jp a) := of_nnn a
theorem call (a : Addr) : Statement (.call a) := of_nnn a
theorem ldi (a : Addr) : Statement (.ldi a) := of_nnn a
theorem jpv0 (a : Addr) : Statement (.jpv0 a) := of_nnn a
theorem seImm (x : Nibble) (k : Byte) : Statement (.seImm x k) := of_x_kk x k
theorem sneImm (x : Nibble) (k : Byte) : Statement (.sneImm x k) := of_x_kk x k
theorem ldImm (x : Nibble) (k : Byte) : Statement (.ldImm x k) := of_x_kk x k
theorem addImm (x : Nibble) (k : Byte) : Statement (.addImm x k) := of_x_kk x k
theorem rnd (x : Nibble) (k : Byte) : Statement (.rnd x k) := of_x_kk x k
theorem seReg (x y : Nibble) : Statement (.seReg x y) := of_x_y x y
theorem sneReg (x y : Nibble) : Statement (.sneReg x y) := of_x_y x y
theorem ldReg (x y : Nibble) : Statement (.ldReg x y) := of_x_y x y
theorem orReg (x y : Nibble) : Statement (.orReg x y) := of_x_y x y
theorem andReg (x y : Nibble) : Statement (.andReg x y) := of_x_y x y
theorem xorReg (x y : Nibble) : Statement (.xorReg x y) := of_x_y x y
theorem addReg (x y : Nibble) : Statement (.addReg x y) := of_x_y x y
theorem sub (x y : Nibble) : Statement (.sub x y) := of_x_y x y
theorem shr (x y : Nibble) : Statement (.shr x y) := of_x_y x y
theorem subn (x y : Nibble) : Statement (.subn x y) := of_x_y x y
theorem shl (x y : Nibble) : Statement (.shl x y) := of_x_y x y
theorem skp (x : Nibble) : Statement (.skp x) := of_x x
theorem sknp (x : Nibble) : Statement (.sknp x) := of_x x
theorem ldVxDt (x : Nibble) : Statement (.ldVxDt x) := of_x x
theorem ldDtVx (x : Nibble) : Statement (.ldDtVx x) := of_x x
theorem ldStVx (x : Nibble) : Statement (.ldStVx x) := of_x x
theorem ldVxK (x : Nibble) : Statement (.ldVxK x) := of_x x
theorem addIVx (x : Nibble) : Statement (.addIVx x) := of_x x
theorem ldFVx (x : Nibble) : Statement (.ldFVx x) := of_x x
theorem ldBVx (x : Nibble) : Statement (.ldBVx x) := of_x x
theorem stRegs (x : Nibble) : Statement (.stRegs x) := of_x x
theorem ldRegs (x : Nibble) : Statement (.ldRegs x) := of_x x
theorem drw (x y n : Nibble) : Statement (.drw x y n) := of_x_y_n x y n

end Sys2Proof.Laws.FieldsFit
end

