-- ==== Sys2Proof/Tests/Slice0.lean ====
section
/-! SUPPORT. Tests. Expected results come from the spec: the vectors of 95_test_vectors.md, named beside
each test, or the encodings of 30_encoding.md. After them, for every obligation with hypotheses, a
witness: a concrete state and operands that meet them all. -/

namespace Sys2Proof.Tests

open Sys2Proof.Machine

/-! ### Helpers -/

/-- The parameters of 95_test_vectors.md with a screen of 8 by 4. -/
def small : Params := { Config.defaultParams with fbWidth := 8, fbHeight := 4 }

/-- The constructed state with those parameters. -/
def base : State := State.construct small

/-- The state with `pc` replaced. -/
def at_ (s : State) (pc : Addr) : State := { s with pc := pc }

/-- One step of a state with the word placed at pc, and a view of the next state. -/
def after {α : Type} (s : State) (w : Word) (view : State → α) : Option α :=
  match step (s.placeWord w) with
  | .next t => some (view t)
  | _ => none

/-- The state with the bytes stored from an address on. -/
def with_ (s : State) (a : Nat) (bytes : List Byte) : State := s.storeBytes a bytes

/-- `n` bytes at an address. -/
def bytesAt (a n : Nat) (s : State) : List Byte := (List.range n).map fun j => s.byte (a + j)

/-- The pixels that are on, as `(x, y)`, row by row. -/
def onPixels (s : State) : List (Nat × Nat) :=
  (List.range s.params.fbHeight).flatMap fun y =>
    ((List.range s.params.fbWidth).filter fun x => s.pixel x y).map fun x => (x, y)

/-! ### Well-formedness: each check refuses a term -/

/-- A field the pattern does not have: `y` in pattern IXKK (R75, S2). -/
theorem test_wf_refuses_foreign_field :
    wellFormedFields .ixkk [(.x, 0xA), (.y, 1)] = false := by decide

/-- A missing field. -/
theorem test_wf_refuses_missing_field : wellFormedFields .ixyn [(.x, 1), (.y, 2)] = false := by decide

/-- `kk = 0x100` does not fit (E11). -/
theorem test_wf_refuses_wide_kk : wellFormedFields .ixkk [(.x, 0xA), (.kk, 0x100)] = false := by decide

/-- `nnn = 0x1000` does not fit (R84). -/
theorem test_wf_refuses_wide_nnn : wellFormedFields .innn [(.nnn, 0x1000)] = false := by decide

/-- `x`, `y` and `n` of 16 do not fit (R84). -/
theorem test_wf_refuses_wide_nibbles :
    wellFormedFields .ixii [(.x, 16)] = false ∧ wellFormedFields .ixyi [(.x, 1), (.y, 16)] = false ∧
      wellFormedFields .ixyn [(.x, 1), (.y, 2), (.n, 16)] = false := by decide

/-- The widest fields are accepted. -/
theorem test_wf_accepts : Instr.wellFormed (.drw 0xF#4 0xF#4 0xF#4) = true ∧
    Instr.wellFormed (.ldImm 0xF#4 0xFF#8) = true ∧ Instr.wellFormed (.jp 0xFFF#12) = true := by decide

/-! ### Decoding: a word of every row of R78, its bits written out

Fields: type nibble, then `x` 1010, `y` 1011 unless said otherwise. -/

theorem test_decode_iiii :
    decodeWord 0b0000_0000_1110_0000#16 = some .cls ∧
    decodeWord 0b0000_0000_1110_1110#16 = some .ret := by decide

theorem test_decode_innn :
    decodeWord 0b0001_1010_1011_1100#16 = some (.jp 0xABC#12) ∧
    decodeWord 0b0010_1010_1011_1100#16 = some (.call 0xABC#12) ∧
    decodeWord 0b1010_0010_1111_0000#16 = some (.ldi 0x2F0#12) ∧
    decodeWord 0b1011_0011_0000_0001#16 = some (.jpv0 0x301#12) := by decide

theorem test_decode_ixkk :
    decodeWord 0b0011_1010_0001_0100#16 = some (.seImm 0xA#4 0x14#8) ∧
    decodeWord 0b0100_1010_0001_0100#16 = some (.sneImm 0xA#4 0x14#8) ∧
    decodeWord 0b0110_1010_0001_0100#16 = some (.ldImm 0xA#4 0x14#8) ∧
    decodeWord 0b0111_1010_0001_0100#16 = some (.addImm 0xA#4 0x14#8) ∧
    decodeWord 0b1100_1010_0001_0100#16 = some (.rnd 0xA#4 0x14#8) := by decide

theorem test_decode_ixyi :
    decodeWord 0b0101_1010_1011_0000#16 = some (.seReg 0xA#4 0xB#4) ∧
    decodeWord 0b1001_1010_1011_0000#16 = some (.sneReg 0xA#4 0xB#4) ∧
    decodeWord 0b1000_1010_1011_0000#16 = some (.ldReg 0xA#4 0xB#4) ∧
    decodeWord 0b1000_1010_1011_0001#16 = some (.orReg 0xA#4 0xB#4) ∧
    decodeWord 0b1000_1010_1011_0010#16 = some (.andReg 0xA#4 0xB#4) ∧
    decodeWord 0b1000_1010_1011_0011#16 = some (.xorReg 0xA#4 0xB#4) ∧
    decodeWord 0b1000_1010_1011_0100#16 = some (.addReg 0xA#4 0xB#4) ∧
    decodeWord 0b1000_1010_1011_0101#16 = some (.sub 0xA#4 0xB#4) ∧
    decodeWord 0b1000_1010_1011_0110#16 = some (.shr 0xA#4 0xB#4) ∧
    decodeWord 0b1000_1010_1011_0111#16 = some (.subn 0xA#4 0xB#4) ∧
    decodeWord 0b1000_1010_1011_1110#16 = some (.shl 0xA#4 0xB#4) := by decide

theorem test_decode_ixii :
    decodeWord 0b1110_1010_1001_1110#16 = some (.skp 0xA#4) ∧
    decodeWord 0b1110_1010_1010_0001#16 = some (.sknp 0xA#4) ∧
    decodeWord 0b1111_1010_0000_0111#16 = some (.ldVxDt 0xA#4) ∧
    decodeWord 0b1111_1010_0001_0101#16 = some (.ldDtVx 0xA#4) ∧
    decodeWord 0b1111_1010_0001_1000#16 = some (.ldStVx 0xA#4) ∧
    decodeWord 0b1111_1010_0000_1010#16 = some (.ldVxK 0xA#4) ∧
    decodeWord 0b1111_1010_0001_1110#16 = some (.addIVx 0xA#4) ∧
    decodeWord 0b1111_1010_0010_1001#16 = some (.ldFVx 0xA#4) ∧
    decodeWord 0b1111_1010_0011_0011#16 = some (.ldBVx 0xA#4) ∧
    decodeWord 0b1111_1010_0101_0101#16 = some (.stRegs 0xA#4) ∧
    decodeWord 0b1111_1010_0110_0101#16 = some (.ldRegs 0xA#4) := by decide

theorem test_decode_ixyn :
    decodeWord 0b1101_0001_0010_1111#16 = some (.drw 0x1#4 0x2#4 0xF#4) := by decide

/-- Words no row matches (E7, E8, T6 to T9, T53, T57, T102 to T104, T117, T118, T150 to T152). -/
theorem test_decode_unhandled :
    ([0x5AB1, 0xE1FF, 0x0000, 0x00E1, 0x01E0, 0x0123, 0x5121, 0x912F, 0x8128, 0x812F, 0x8129, 0xE49F,
      0xE400, 0xF300, 0xF375, 0xF385] : List Word).all (fun w => decodeWord w == none) = true := by
  decide

/-- The encoder (E9, E10), and a word handed over in the numbering of the opcode table (E6). -/
theorem test_encode :
    encode (.addReg 3#4 0xC#4) = 0x83C4#16 ∧ encodeBytes (.drw 0#4 1#4 5#4) = [0xD0#8, 0x15#8] ∧
    decodeTableWord 16 0xD12F = some (.drw 1#4 2#4 0xF#4) ∧ decodeTableWord 16 0x5AB1 = none := by decide

/-- Fewer than two bytes are no instruction. -/
theorem test_decode_truncated : decode [0x6A#8] = .error .truncated := by decide

/-- The Codec (S2, E11). -/
theorem test_codec :
    readField 0x6A14#16 .kk = .ok 0x14 ∧ readField 0x6A14#16 .x = .ok 0xA ∧
    readField 0x6A14#16 .y = .error (.fieldAccessViolation .y .ixkk) ∧
    readField 0x6A14#16 .n = .error (.fieldAccessViolation .n .ixkk) ∧
    writeField 0x6A14#16 .kk 0x100 = .error (.outOfRange .kk 0x100) ∧
    writeField 0x6A14#16 .x 3 = .ok 0x6314#16 := by decide

/-! ### Patterns IIII and INNN (95_test_vectors.md 2.2, 2.3) -/

/-- T1. -/
theorem test_cls :
    after { base with v := base.v.set 15 1#8, fb := base.fb.modify 3 fun r => r.set 7 true } 0x00E0#16
      (fun t => (onPixels t, t.pc, t.reg 15#4)) = some ([], 0x202#12, 1#8) := by decide

/-- T3. -/
theorem test_ret :
    after { base with pc := 0x600#12, stack := [0x200#12, 0x300#12] } 0x00EE#16
      (fun t => (t.pc, t.stack)) = some (0x302#12, [0x200#12]) := by decide

/-- T5. -/
theorem test_ret_off_the_range :
    after { base with pc := 0x300#12, stack := [0xFFE#12] } 0x00EE#16
      (fun t => (t.pc, t.stack, t.fault)) =
      some (0xFFE#12, [], some (.memoryBoundsViolation .pcRange 0x1000 2)) := by decide

/-- T10, T11. -/
theorem test_jp :
    after base 0x1234#16 State.pc = some 0x234#12 ∧
    after base 0x1200#16 State.pc = some 0x200#12 := by decide

/-- T14. -/
theorem test_call :
    after { base with stack := [0x111#12] } 0x2200#16 (fun t => (t.pc, t.stack)) =
      some (0x200#12, [0x111#12, 0x200#12]) := by decide

/-- T15. -/
theorem test_call_overflow :
    after { base with params := { small with stackDepth := some 2 }, stack := [0x200#12, 0x202#12] }
      0x2500#16 (fun t => (t.pc, t.stack, t.fault)) =
      some (0x200#12, [0x200#12, 0x202#12], some .stackOverflow) := by decide

/-- T16. -/
theorem test_ldi :
    after { base with index := 0xFFFF#16 } 0xA2F0#16 (fun t => (t.index, t.pc)) =
      some (0x02F0#16, 0x202#12) := by decide

/-- T20. -/
theorem test_jpv0 :
    after { base with v := base.v.set 0 0xFE#8 } 0xBF01#16 State.pc = some 0xFFF#12 := by decide

/-- T21. -/
theorem test_jpv0_no_wrap :
    after { base with v := base.v.set 0 0xFF#8 } 0xBF01#16 (fun t => (t.pc, t.fault)) =
      some (0x200#12, some (.memoryBoundsViolation .pcRange 0x1000 2)) := by decide

/-! ### Pattern IXKK (2.4) -/

/-- T30, T43. -/
theorem test_se_imm :
    after { base with v := base.v.set 3 0x2A#8 } 0x332A#16 State.pc = some 0x204#12 ∧
    after (at_ base 0xFFC#12) 0x3000#16 (fun t => (t.pc, t.fault)) =
      some (0xFFC#12, some (.memoryBoundsViolation .pcRange 0x1000 2)) := by decide

/-- T32, T33. -/
theorem test_sne_imm :
    after { base with v := base.v.set 3 0x2A#8 } 0x432A#16 State.pc = some 0x202#12 ∧
    after { base with v := base.v.set 3 0x2A#8 } 0x432B#16 State.pc = some 0x204#12 := by decide

/-- T34 (S7). -/
theorem test_ld_imm :
    after base 0x6A14#16 (fun t => (t.reg 0xA#4, t.pc)) = some (0x14#8, 0x202#12) := by decide

/-- T45: the register is written, pc is not. -/
theorem test_ld_imm_at_the_top :
    after (at_ base 0xFFE#12) 0x6122#16 (fun t => (t.reg 1#4, t.pc, t.fault)) =
      some (0x22#8, 0xFFE#12, some (.memoryBoundsViolation .pcRange 0x1000 2)) := by decide

/-- T36, T38. -/
theorem test_add_imm :
    after { base with v := base.v.set 1 0xFE#8 } 0x7105#16 (fun t => (t.reg 1#4, t.reg 15#4)) =
      some (3#8, 0#8) ∧
    after { base with v := base.v.set 15 0xFF#8 } 0x7F01#16 (fun t => t.reg 15#4) = some 0#8 := by
  decide

/-- The shape of T40: the draw AND kk, and the counter moves on. -/
theorem test_rnd :
    exec (.rnd 1#4 0x0F#8) base = .next { base with
      v := base.v.set 1 (Config.randomByte 0 &&& 0x0F#8), draws := 1, pc := 0x202#12 } := by rfl

/-! ### Pattern IXYI (2.5) -/

/-- T51, T52. -/
theorem test_se_reg :
    after { base with v := (base.v.set 1 7#8).set 2 8#8 } 0x5120#16 State.pc = some 0x202#12 ∧
    after { base with v := base.v.set 3 9#8 } 0x5330#16 State.pc = some 0x204#12 := by decide

/-- T54, T56. -/
theorem test_sne_reg :
    after { base with v := (base.v.set 1 7#8).set 2 8#8 } 0x9120#16 State.pc = some 0x204#12 ∧
    after { base with v := base.v.set 3 9#8 } 0x9330#16 State.pc = some 0x202#12 := by decide

/-- T59. -/
theorem test_ld_reg :
    after { base with v := (base.v.set 15 1#8).set 3 0x44#8 } 0x83F0#16 (fun t => t.reg 3#4) =
      some 1#8 := by decide

/-- T60, T61, T62. -/
theorem test_logic :
    after { base with v := ((base.v.set 1 0xF0#8).set 2 0x3C#8).set 15 1#8 } 0x8121#16
      (fun t => (t.reg 1#4, t.reg 15#4)) = some (0xFC#8, 1#8) ∧
    after { base with v := ((base.v.set 1 0xF0#8).set 2 0x3C#8).set 15 1#8 } 0x8122#16
      (fun t => (t.reg 1#4, t.reg 15#4)) = some (0x30#8, 1#8) ∧
    after { base with v := ((base.v.set 1 0xF0#8).set 2 0x3C#8).set 15 1#8 } 0x8123#16
      (fun t => (t.reg 1#4, t.reg 15#4)) = some (0xCC#8, 1#8) := by decide

/-- T64, T71. -/
theorem test_add_reg :
    after { base with v := (base.v.set 1 0xC8#8).set 2 0x64#8 } 0x8124#16
      (fun t => (t.reg 1#4, t.reg 15#4)) = some (0x2C#8, 1#8) ∧
    after { base with v := (base.v.set 15 0xF0#8).set 1 0x20#8 } 0x8F14#16
      (fun t => t.reg 15#4) = some 1#8 := by decide

/-- T74, T80. -/
theorem test_sub :
    after { base with v := ((base.v.set 1 5#8).set 2 0xA#8).set 15 1#8 } 0x8125#16
      (fun t => (t.reg 1#4, t.reg 15#4)) = some (0#8, 0#8) ∧
    after { base with v := (base.v.set 15 9#8).set 1 4#8 } 0x8F15#16 (fun t => t.reg 15#4) =
      some 1#8 := by decide

/-- T83, T86. -/
theorem test_subn :
    after { base with v := (base.v.set 1 5#8).set 2 0xA#8 } 0x8127#16
      (fun t => (t.reg 1#4, t.reg 15#4)) = some (5#8, 1#8) ∧
    after { base with v := (base.v.set 15 9#8).set 1 4#8 } 0x8F17#16 (fun t => t.reg 15#4) =
      some 0#8 := by decide

/-- T88, and the discriminating form of T93: `8F16` with V1 = 2. -/
theorem test_shr :
    after { base with v := (base.v.set 1 0xEE#8).set 2 0x0B#8 } 0x8126#16
      (fun t => (t.reg 1#4, t.reg 2#4, t.reg 15#4)) = some (5#8, 0x0B#8, 1#8) ∧
    after { base with v := (base.v.set 15 0x55#8).set 1 2#8 } 0x8F16#16 (fun t => t.reg 15#4) =
      some 1#8 := by decide

/-- T95, T100. -/
theorem test_shl :
    after { base with v := (base.v.set 1 0xEE#8).set 2 0xC1#8 } 0x812E#16
      (fun t => (t.reg 1#4, t.reg 15#4)) = some (0x82#8, 1#8) ∧
    after { base with v := (base.v.set 15 0x55#8).set 1 0xC1#8 } 0x8F1E#16 (fun t => t.reg 15#4) =
      some 0x82#8 := by decide

/-! ### Pattern IXII (2.6) -/

/-- T110, T111. -/
theorem test_skp :
    after { base with v := base.v.set 4 10#8, keys := base.keys.set 10 true } 0xE49E#16 State.pc =
      some 0x204#12 ∧
    after { base with v := base.v.set 4 10#8, keys := base.keys.set 4 true } 0xE49E#16 State.pc =
      some 0x202#12 := by decide

/-- T112, T115. -/
theorem test_sknp :
    after { base with v := base.v.set 4 10#8, keys := base.keys.set 10 true } 0xE4A1#16 State.pc =
      some 0x202#12 ∧
    after { base with v := base.v.set 4 0xFF#8 } 0xE4A1#16 (fun t => (t.pc, t.fault)) =
      some (0x200#12, some (.keyIndexOutOfRange 0xFF#8)) := by decide

/-- T119, T120, T122. -/
theorem test_timer_instructions :
    after { base with delay := ⟨60#8, 7⟩ } 0xF307#16 (fun t => (t.reg 3#4, t.delay)) =
      some (60#8, ⟨60#8, 7⟩) ∧
    after { base with v := base.v.set 3 60#8, delay := ⟨0#8, 7⟩ } 0xF315#16 State.delay =
      some ⟨60#8, 7⟩ ∧
    after { base with v := base.v.set 3 5#8 } 0xF318#16 (fun t => (t.sound.value, t.delay.value)) =
      some (5#8, 0#8) := by decide

/-- T124. -/
theorem test_key_wait :
    after { base with keys := base.keys.set 3 true } 0xFF0A#16
      (fun t => (t.wait, t.wreg, t.pc, t.reg 15#4)) = some (true, 15#4, 0x202#12, 0#8) := by decide

/-- T126, T127. -/
theorem test_add_index :
    after { base with v := base.v.set 2 1#8, index := 0x0FFF#16 } 0xF21E#16
      (fun t => (t.index, t.reg 15#4)) = some (0x1000#16, 0#8) ∧
    after { base with v := base.v.set 2 0xFF#8, index := 0xFFFF#16 } 0xF21E#16 State.index =
      some 0x00FE#16 := by decide

/-- T128, T132. -/
theorem test_font_address :
    after { base with v := base.v.set 1 0x0A#8 } 0xF129#16 State.index = some 0x0032#16 ∧
    after { base with v := base.v.set 1 0xFF#8 } 0xF129#16 State.index = some 0x04FB#16 := by decide

/-- T136. -/
theorem test_bcd :
    after { base with v := base.v.set 3 0xFF#8, index := 0x300#16 } 0xF333#16
      (fun t => (bytesAt 0x300 3 t, t.index)) = some ([2#8, 5#8, 5#8], 0x300#16) := by decide

/-- T139. -/
theorem test_bcd_outside :
    after { base with v := base.v.set 3 0x7B#8, index := 0xFFE#16 } 0xF333#16
      (fun t => (bytesAt 0xFFE 2 t, t.pc, t.fault)) =
      some ([0#8, 0#8], 0x200#12, some (.memoryBoundsViolation .dataWrite 0xFFE 3)) := by decide

/-- T141. -/
theorem test_store_registers :
    after { base with v := (((base.v.set 0 0x11#8).set 1 0x22#8).set 2 0x33#8).set 3 0x44#8
                      index := 0x400#16 } 0xF255#16
      (fun t => (bytesAt 0x400 4 t, t.index)) = some ([0x11#8, 0x22#8, 0x33#8, 0#8], 0x400#16) := by
  decide

/-- T145. -/
theorem test_load_registers :
    after (with_ { base with v := base.v.set 3 0x77#8, index := 0x300#16 } 0x300 [2#8, 5#8, 4#8, 9#8])
      0xF265#16 (fun t => (t.reg 0#4, t.reg 1#4, t.reg 2#4, t.reg 3#4, t.index)) =
      some (2#8, 5#8, 4#8, 0x77#8, 0x300#16) := by decide

/-- T147. -/
theorem test_load_registers_outside :
    after { base with v := base.v.set 1 2#8, index := 0xFFF#16 } 0xF165#16
      (fun t => (t.reg 1#4, t.pc, t.fault)) =
      some (2#8, 0x200#12, some (.memoryBoundsViolation .dataRead 0xFFF 2)) := by decide

/-! ### Pattern IXYN and the framebuffer (2.7) -/

/-- T171: the last byte of memory as a one-row sprite. -/
theorem test_draw :
    after (with_ { base with index := 0xFFF#16 } 0xFFF [0x81#8]) 0xD011#16
      (fun t => (onPixels t, t.reg 15#4, t.pc)) =
      some ([(0, 0), (7, 0)], 0#8, 0x202#12) := by decide

/-- T163: with n = 0 memory is not read. -/
theorem test_draw_nothing :
    after { base with v := base.v.set 15 1#8, index := 0xFFFF#16 } 0xD010#16
      (fun t => (t.reg 15#4, t.fault, t.pc)) = some (0#8, none, 0x202#12) := by decide

/-- The shape of T164 and T168 on the small screen: clipped at the right edge, and wrapped. -/
theorem test_draw_edges :
    drawSprite small base.fb 4 3 [0xFF#8, 0xFF#8] =
      (base.fb.set 3 [false, false, false, false, true, true, true, true], false) ∧
    (drawSprite { small with wrap := true }
      (base.fb.set 0 [true, false, false, false, false, false, false, false]) 8 4 [0xF0#8]) =
      (base.fb.set 0 [false, true, true, true, false, false, false, false], true) := by decide

/-- S4. -/
theorem test_xor_twice :
    (xorPixel small base.fb 3 2 true).2 = false ∧
    xorPixel small (xorPixel small base.fb 3 2 true).1 3 2 true = (base.fb, true) := by decide

/-- S9 on the first four rows: the checkerboard. -/
theorem test_checkerboard :
    drawSprite small base.fb 0 0 [0xAA#8, 0x55#8, 0xAA#8, 0x55#8] =
      ((List.range 4).map (fun y => (List.range 8).map fun x => (x + y) % 2 == 0), false) := by decide

/-! ### Fetch, events, timers (2.8, part 3) -/

/-- T180. -/
theorem test_fetch_outside :
    (match step { base with pc := 0xFFF#12, inputs := [.exec] } with
      | .next t => t.fault
      | _ => none) = some (.memoryBoundsViolation .fetch 0xFFF 2) := by decide

/-- T181, T182. -/
theorem test_fetch_odd_and_last :
    after (at_ base 0x201#12) 0x6001#16 (fun t => (t.reg 0#4, t.pc)) = some (1#8, 0x203#12) ∧
    after (at_ base 0xFFE#12) 0x1ABC#16 State.pc = some 0xABC#12 := by decide

/-- T6. -/
theorem test_unhandled :
    after base 0x0000#16 (fun t => (t.fault, t.pc)) =
      some (some (.unhandledInstruction 0x0000#16 0x200#12), 0x200#12) := by decide

/-- K2 (1/120 s twice) and K5 (1/30 s), with 1/60 s as 610 quanta. -/
theorem test_timer :
    timerTick 610 ⟨5#8, 0⟩ 305 = ⟨5#8, 305⟩ ∧ timerTick 610 ⟨5#8, 305⟩ 305 = ⟨4#8, 0⟩ ∧
    timerTick 610 ⟨0#8, 0⟩ 1220 = ⟨0#8, 610⟩ := by decide

/-- S10 step 4: the scan takes key 3, and `1202` runs in the same tick. -/
theorem test_key_ends_wait :
    (match step { with_ base 0x202 [0x12#8, 0x02#8] with
        pc := 0x202#12, wait := true, wreg := 5#4, keys := base.keys.set 3 true, inputs := [.tick 0] } with
      | .next t => some (t.reg 5#4, t.wait, t.pc)
      | _ => none) = some (3#8, false, 0x202#12) := by decide

/-- Q1 step 4: with `IPT = 4` the waking tick takes key 2, the lowest, and runs `6203`, `6304`, `120A`,
`120A`. -/
theorem test_key_ends_wait_four :
    (match step { with_ base 0x206 [0x62#8, 0x03#8, 0x63#8, 0x04#8, 0x12#8, 0x0A#8] with
        params := { small with ipt := 4 }, pc := 0x206#12, wait := true, wreg := 5#4
        keys := (base.keys.set 9 true).set 2 true, inputs := [.tick 610] } with
      | .next t => some (t.reg 5#4, t.reg 2#4, t.reg 3#4, t.wait, t.pc)
      | _ => none) = some (2#8, 3#8, 4#8, false, 0x20A#12) := by decide

/-- Q2: a fault stops the tick. -/
theorem test_fault_stops_tick :
    (match step { with_ base 0x200 [0x60#8, 0x01#8, 0x00#8, 0x00#8, 0x61#8, 0x02#8] with
        params := { small with ipt := 3 }, inputs := [.tick 0] } with
      | .next t => some (t.reg 0#4, t.reg 1#4, t.pc, t.fault)
      | _ => none) =
      some (1#8, 0#8, 0x202#12, some (.unhandledInstruction 0#16 0x202#12)) := by decide

/-- The reset contents: digit A of the font at 0x032 (P5), and the byte after the font. -/
theorem test_font_bytes :
    bytesAt 0x32 5 base = [0xF0#8, 0x90#8, 0xF0#8, 0x90#8, 0x90#8] ∧ base.byte 80 = 0#8 := by decide

/-- withFetchWord places the word so that the next step runs it, from the state after reset. -/
theorem test_with_fetch_word :
    (match step (State.reset.withFetchWord 16 0x6A14) with
      | .next t => some (t.reg 0xA#4, t.pc)
      | _ => none) = some (0x14#8, 0x202#12) := by decide

/-! ### Witnesses: states and operands that meet the hypotheses of the obligations

Each is named after its obligation; where an obligation has several clauses, one conjunct for each, at
the boundary of its range. -/

/-- The next state of an outcome. -/
def nextOf (r : Result) : Option State :=
  match r with
  | .next t => some t
  | _ => none

/-- What an outcome is, from its next state. -/
theorem eq_next {r : Result} {t : State} (h : nextOf r = some t) : r = .next t := by
  unfold nextOf at h
  split at h
  · cases h; rfl
  · cases h

/-- pc at the last value from which 2 can be added. -/
def last2 : State := at_ base 0xFFD#12

/-- pc at the last value from which 4 can be added. -/
def last4 : State := at_ base 0xFFB#12

theorem test_witness_EncodeOfDecodeIsTheWord :
    decodeWord 0x8AB4#16 = some (.addReg 0xA#4 0xB#4) := by decide

theorem test_witness_OpcodeMapDecidesDecoding :
    ⟨"ADD_REG", 0x8004#16, 0xF00F#16⟩ ∈ opcodeRows ∧
    (⟨"ADD_REG", 0x8004#16, 0xF00F#16⟩ : OpcodeRow).selects 0x8AB4#16 = true ∧
    decodeWord 0x8AB4#16 = some (.addReg 0xA#4 0xB#4) := by decide

theorem test_witness_CodecReadsAndWritesFields :
    patternOf (typeNibble 0x6A14#16) = some .ixkk ∧ Field.kk ∈ Pattern.ixkk.uses ∧
    Field.y ∉ Pattern.ixkk.uses ∧ Field.kk.fits 255 = true ∧ Field.kk.fits 256 = false ∧
    Field.x ∈ Pattern.ixkk.uses ∧ Field.x ≠ Field.kk ∧
    patternOf (typeNibble 0x8AB4#16) = some .ixyi ∧ Field.y ∈ Pattern.ixyi.uses ∧
    patternOf (typeNibble 0xF533#16) = some .ixii ∧ Field.x ∈ Pattern.ixii.uses ∧
    Field.x.fits 15 = true ∧ Field.y.fits 15 = true ∧
    (7 < Field.x.lo ∨ Field.x.lo + Field.x.width ≤ 7) ∧
    (12 < Field.x.lo ∨ Field.x.lo + Field.x.width ≤ 12) := by decide

theorem test_witness_FetchReadsHighByteFirst :
    (at_ base 0xFFE#12).pc.toNat + 2 ≤ base.params.memSize ∧
    base.params.memSize < (at_ base 0xFFF#12).pc.toNat + 2 := by decide

/-- A state whose pending event is a direct Exec of `1ABC` at the last fetchable address. -/
def execPending : State := { with_ base 0xFFE [0x1A#8, 0xBC#8] with pc := 0xFFE#12, inputs := [.exec] }

theorem test_witness_ExecRunsTheDecodedInstruction :
    execPending.inputs = .exec :: [] ∧ execPending.fault = none ∧ execPending.wait = false ∧
    execPending.pc.toNat + 2 ≤ execPending.params.memSize ∧
    decodeWord (wordOfBytes (execPending.byte execPending.pc.toNat)
      (execPending.byte (execPending.pc.toNat + 1))) = some (.jp 0xABC#12) := by decide

/-- The same state with nothing pending. -/
def nothingPending : State := { execPending with inputs := [] }

theorem test_witness_TickRunsTheDecodedInstruction_pending :
    ({ execPending with inputs := [.tick 610] } : State).inputs = .tick 610 :: [] ∧
    execPending.fault = none ∧ execPending.wait = false ∧ execPending.params.ipt = 1 ∧
    execPending.pc.toNat + 2 ≤ execPending.params.memSize ∧
    decodeWord (wordOfBytes (execPending.byte execPending.pc.toNat)
      (execPending.byte (execPending.pc.toNat + 1))) = some (.jp 0xABC#12) := by decide

theorem test_witness_TickRunsTheDecodedInstruction_free :
    ∃ (s0 : State) (dt : Nat), nothingPending.inputs = [] ∧
      dt = Config.freeDt nothingPending.draws ∧
      s0 = { nothingPending with draws := nothingPending.draws + 1 } ∧
      nothingPending.fault = none ∧ nothingPending.wait = false ∧ nothingPending.params.ipt = 1 ∧
      nothingPending.pc.toNat + 2 ≤ nothingPending.params.memSize ∧
      decodeWord (wordOfBytes (nothingPending.byte nothingPending.pc.toNat)
        (nothingPending.byte (nothingPending.pc.toNat + 1))) = some (.jp 0xABC#12) :=
  ⟨_, _, rfl, rfl, rfl, by decide, by decide, by decide, by decide, by decide⟩

theorem test_witness_UnhandledWordFaults :
    base.fetch = some 0x0000#16 ∧ decodeWord 0x0000#16 = none := by decide

theorem test_witness_ClearScreenTurnsEveryPixelOff :
    last2.pc.toNat + 2 ≤ 0xFFF ∧ 7 < last2.params.fbWidth ∧ 3 < last2.params.fbHeight := by decide

theorem test_witness_ReturnGoesPastThePoppedAddress :
    ({ base with stack := [0x300#12, 0xFFD#12] } : State).stack = [0x300#12] ++ [0xFFD#12] ∧
    (0xFFD#12 : Addr).toNat + 2 ≤ 0xFFF := by decide

theorem test_witness_JumpGoesToItsTarget : typeNibble 0x1FFF#16 = 0x1#4 := by decide

/-- A capacity of 2 with one entry in use: the last call that fits. -/
def oneLeft : State := { last2 with params := { small with stackDepth := some 2 }, stack := [0x200#12] }

theorem test_witness_CallPushesItsOwnAddress :
    oneLeft.params.stackDepth ≠ some oneLeft.stack.length ∧
    base.params.stackDepth ≠ some base.stack.length := by decide

theorem test_witness_ReturnUndoesCall :
    oneLeft.params.stackDepth ≠ some oneLeft.stack.length ∧ oneLeft.pc.toNat + 2 ≤ 0xFFF ∧
    exec (.call 0x500#12) oneLeft = .next { oneLeft with
      stack := [0x200#12, 0xFFD#12], pc := 0x500#12 } ∧
    ({ oneLeft with stack := [0x200#12, 0xFFD#12], pc := 0x900#12 } : State).stack =
      ({ oneLeft with stack := [0x200#12, 0xFFD#12], pc := 0x500#12 } : State).stack :=
  ⟨by decide, by decide, eq_next (by decide), by decide⟩

theorem test_witness_LoadIndexZeroExtends : last2.pc.toNat + 2 ≤ 0xFFF := by decide

theorem test_witness_IndexedJumpAddsV0 :
    (0xF01#12 : Addr).toNat + (({ base with v := base.v.set 0 0xFE#8 } : State).reg 0#4).toNat ≤ 0xFFF := by
  decide

theorem test_witness_ImmediateSkips :
    last4.pc.toNat + (if last4.reg 3#4 = 0#8 then 4 else 2) ≤ 0xFFF ∧
    last2.pc.toNat + (if last2.reg 3#4 = 1#8 then 4 else 2) ≤ 0xFFF ∧
    last2.pc.toNat + (if last2.reg 3#4 = 0#8 then 2 else 4) ≤ 0xFFF ∧
    last4.pc.toNat + (if last4.reg 3#4 = 1#8 then 2 else 4) ≤ 0xFFF := by decide

theorem test_witness_ImmediateLoadAndAdd : last2.pc.toNat + 2 ≤ 0xFFF := by decide

theorem test_witness_RandomByteIsMasked : last2.pc.toNat + 2 ≤ 0xFFF ∧ (0#8 : Byte) = 0#8 := by decide

theorem test_witness_RegisterSkips :
    last4.pc.toNat + (if last4.reg 3#4 = last4.reg 4#4 then 4 else 2) ≤ 0xFFF ∧
    last2.pc.toNat + (if last2.reg 3#4 = last2.reg 4#4 then 2 else 4) ≤ 0xFFF := by decide

theorem test_witness_CopyAndLogic : last2.pc.toNat + 2 ≤ 0xFFF := by decide

theorem test_witness_AddWritesSumThenCarry : last2.pc.toNat + 2 ≤ 0xFFF := by decide

theorem test_witness_SubtractClampsThenFlags : last2.pc.toNat + 2 ≤ 0xFFF := by decide

theorem test_witness_ShiftsFlagThenResult : last2.pc.toNat + 2 ≤ 0xFFF := by decide

theorem test_witness_AluLaws : (14#4 : Nibble) ≠ 15#4 ∧ last2.pc.toNat + 2 ≤ 0xFFF := by decide

/-- V4 names the last key, which is down. -/
def keyDown : State := { last4 with v := base.v.set 4 15#8, keys := base.keys.set 15 true }

theorem test_witness_KeySkips :
    (keyDown.reg 4#4).toNat = (15#4 : Nibble).toNat ∧
    keyDown.pc.toNat + (if keyDown.key 15#4 = true then 4 else 2) ≤ 0xFFF ∧
    keyDown.pc.toNat + (if keyDown.key 15#4 = true then 2 else 4) ≤ 0xFFF := by decide

theorem test_witness_TimerInstructions : last2.pc.toNat + 2 ≤ 0xFFF := by decide

theorem test_witness_KeyWaitIsEntered : last2.pc.toNat + 2 ≤ 0xFFF := by decide

theorem test_witness_IndexArithmetic : last2.pc.toNat + 2 ≤ 0xFFF := by decide

/-- A memory that is not empty, and I at the last place where three bytes fit. -/
def stored : State := { with_ last2 0x300 [7#8] with index := 0xFFD#16 }

theorem test_witness_BcdStoresThreeDigits :
    Memory.wf stored.params.resetByte stored.mem ∧
    stored.index.toNat + 3 ≤ stored.params.memSize ∧ stored.pc.toNat + 2 ≤ 0xFFF := by decide

theorem test_witness_RegistersAreStored :
    Memory.wf stored.params.resetByte stored.mem ∧
    stored.index.toNat + (2#4 : Nibble).toNat + 1 ≤ stored.params.memSize ∧
    stored.pc.toNat + 2 ≤ 0xFFF ∧ (2#4 : Nibble).toNat ≤ (2#4 : Nibble).toNat := by decide

theorem test_witness_RegistersAreLoaded :
    stored.index.toNat + (2#4 : Nibble).toNat + 1 ≤ stored.params.memSize ∧
    stored.pc.toNat + 2 ≤ 0xFFF := by decide

theorem test_witness_DrawBlitsAndFlags :
    ((3#4 : Nibble) = 0#4 ∨ stored.index.toNat + (3#4 : Nibble).toNat ≤ stored.params.memSize) ∧
    ((0#4 : Nibble) = 0#4 ∨
      ({ stored with index := 0xFFFF#16 } : State).index.toNat + (0#4 : Nibble).toNat ≤
        stored.params.memSize) ∧
    stored.pc.toNat + 2 ≤ 0xFFF := by decide

theorem test_witness_SpriteTogglesWhatItLandsOn :
    0 < small.fbWidth ∧ 0 < small.fbHeight ∧ gridFits small base.fb ∧ noOverlap small 15 ∧
    noOverlap { small with wrap := true } 4 ∧ 7 < small.fbWidth ∧ 3 < small.fbHeight := by decide

theorem test_witness_CollisionIffALitPixelIsHit :
    0 < small.fbWidth ∧ 0 < small.fbHeight ∧ gridFits small base.fb ∧ noOverlap small 15 ∧
    noOverlap { small with wrap := true } 4 := by decide

theorem test_witness_DrawingTwiceRestores :
    0 < small.fbWidth ∧ 0 < small.fbHeight ∧ gridFits small base.fb ∧ noOverlap small 15 ∧
    noOverlap { small with wrap := true } 4 := by decide

theorem test_witness_XorPixelTogglesOnePixel :
    0 < small.fbWidth ∧ 0 < small.fbHeight ∧ gridFits small base.fb ∧
    (small.wrap = false ∧ (small.fbWidth ≤ 8 ∨ small.fbHeight ≤ 0)) ∧
    (small.wrap = false ∧ 7 < small.fbWidth ∧ 3 < small.fbHeight ∧ 7 = 7 ∧ 3 = 3) ∧
    (({ small with wrap := true } : Params).wrap = true ∧ 0 = 8 % small.fbWidth ∧
      3 = 7 % small.fbHeight) ∧ ((6 : Nat) ≠ 7 ∨ (3 : Nat) ≠ 3) ∧
    Frame.pixel base.fb 7 3 = false := by decide

theorem test_witness_TimerTickAlgorithm :
    (⟨5#8, 0⟩ : Timer).elapsed + 609 < 610 ∧ 610 ≤ (⟨1#8, 0⟩ : Timer).elapsed + 610 ∧
    0#8 < (⟨1#8, 0⟩ : Timer).value ∧ (⟨0#8, 0⟩ : Timer).value = 0#8 := by decide

/-- A waiting machine with keys 15 and 3 down. -/
def waiting : State :=
  { base with
    wait := true, wreg := 5#4, keys := (base.keys.set 15 true).set 3 true, inputs := [.tick 610] }

theorem test_witness_ScanTakesTheLowestKey :
    (∀ k, base.key k = false) ∧ waiting.key 3#4 = true ∧
    ∀ j : Nibble, j.toNat < (3#4 : Nibble).toNat → waiting.key j = false := by decide

theorem test_witness_WaitingTickOnlyMovesTimers :
    State.tickTaken { waiting with keys := base.keys } 610 { waiting with keys := base.keys, inputs := [] } ∧
    waiting.fault = none ∧ waiting.wait = true ∧
    ∀ k, ({ waiting with keys := base.keys } : State).key k = false :=
  ⟨.inl ⟨[], rfl, rfl⟩, by decide, by decide, by decide⟩

/-- The waiting machine with nothing pending: the free tick. -/
theorem test_witness_WaitingTickOnlyMovesTimers_free :
    State.tickTaken { waiting with keys := base.keys, inputs := [] } (Config.freeDt 0)
      { waiting with keys := base.keys, inputs := [], draws := 1 } ∧
    waiting.fault = none ∧ waiting.wait = true ∧
    ∀ k, ({ waiting with keys := base.keys, inputs := [] } : State).key k = false :=
  ⟨.inr ⟨rfl, rfl, rfl⟩, by decide, by decide, by decide⟩

theorem test_witness_KeyEndsTheWaitInTheSameTick :
    waiting.tickTaken 610 { waiting with inputs := [] } ∧
    State.tickTaken { waiting with inputs := [] } (Config.freeDt 0)
      { waiting with inputs := [], draws := 1 } ∧
    waiting.fault = none ∧ waiting.wait = true ∧ waiting.params.ipt = 1 ∧ waiting.key 3#4 = true ∧
    ∀ j : Nibble, j.toNat < (3#4 : Nibble).toNat → waiting.key j = false :=
  ⟨.inl ⟨[], rfl, rfl⟩, .inr ⟨rfl, rfl, rfl⟩, by decide, by decide, by decide, by decide, by decide⟩

theorem test_witness_TickStopsAtFaultOrWait_loop :
    State.tickTaken { base with inputs := [.tick 0] } 0 base ∧
    base.tickTaken (Config.freeDt 0) { base with draws := 1 } ∧ base.fault = none ∧
    base.wait = false :=
  ⟨.inl ⟨[], rfl, rfl⟩, .inr ⟨rfl, rfl, rfl⟩, by decide, by decide⟩

theorem test_witness_TickStopsAtFaultOrWait_fault :
    execOne base = .next { base with fault := some (.unhandledInstruction 0#16 0x200#12) } ∧
    ({ base with fault := some (.unhandledInstruction 0#16 0x200#12) } : State).fault ≠ none :=
  ⟨eq_next (by decide), by decide⟩

theorem test_witness_TickStopsAtFaultOrWait_wait :
    execOne (with_ base 0x200 [0xF5#8, 0x0A#8]) = .next { with_ base 0x200 [0xF5#8, 0x0A#8] with
      wait := true, wreg := 5#4, pc := 0x202#12 } ∧
    ({ with_ base 0x200 [0xF5#8, 0x0A#8] with wait := true, wreg := 5#4, pc := 0x202#12 } : State).wait =
      true :=
  ⟨eq_next (by decide), by decide⟩

theorem test_witness_TickStopsAtFaultOrWait_goes_on :
    execOne (with_ base 0x200 [0x12#8, 0x02#8]) =
      .next { with_ base 0x200 [0x12#8, 0x02#8] with pc := 0x202#12 } ∧
    ({ with_ base 0x200 [0x12#8, 0x02#8] with pc := 0x202#12 } : State).fault = none ∧
    ({ with_ base 0x200 [0x12#8, 0x02#8] with pc := 0x202#12 } : State).wait = false :=
  ⟨eq_next (by decide), by decide, by decide⟩

theorem test_witness_KeyEventsSetOneFlag :
    ({ base with inputs := [.press 15#4] } : State).inputs = .press 15#4 :: [] ∧
    ({ base with inputs := [.release 0#4] } : State).inputs = .release 0#4 :: [] := by decide

theorem test_witness_HostLoadStoresOrReports :
    ({ stored with inputs := [.loadMem [1#8, 2#8] 0xFFE] } : State).inputs =
      .loadMem [1#8, 2#8] 0xFFE :: [] ∧
    Memory.wf stored.params.resetByte stored.mem ∧ 0xFFE + [1#8, 2#8].length ≤ stored.params.memSize ∧
    stored.params.memSize < 0xFFF + [1#8, 2#8].length := by decide

/-- The smallest legal construction: a memory of 2 bytes, a screen of one pixel, an empty font. -/
def tiny : Params :=
  { Config.defaultParams with
    memSize := 2, fbWidth := 1, fbHeight := 1, fontData := Vector.replicate 16 [], threshold := 1
    stackDepth := some 1 }

theorem test_witness_ResetProducesTheResetState :
    ({ base with inputs := [.reset tiny], fault := some .stackUnderflow } : State).inputs =
      .reset tiny :: [] ∧ tiny.check = none ∧
    ({ base with inputs := [.reset small] } : State).inputs = .reset small :: [] ∧
    small.check = none ∧ small.fontBase + 16 * small.fontStride ≤ 80 ∧ 4 < small.fontStride := by
  decide

theorem test_witness_FontIsCopiedAtReset : 4 < small.fontStride := by decide

theorem test_witness_ConstructionChecksItsParameters :
    ({ base with inputs := [.reset { small with memSize := 79 }] } : State).inputs =
      .reset { small with memSize := 79 } :: [] ∧
    ({ small with memSize := 79 } : Params).check = some (.memoryBoundsViolation .hostLoad 75 5) := by
  decide

/-- A faulted machine with a key press to come. -/
def faulted : State := { base with fault := some .stackUnderflow, inputs := [.press 3#4] }

theorem test_witness_FaultStaysUntilReset :
    faulted.fault = some .stackUnderflow ∧ (∀ p, faulted.nextEvent.1 ≠ .reset p) ∧
    step faulted = .next { faulted with inputs := [], keys := base.keys.set 3 true } :=
  ⟨rfl, fun _ h => Event.noConfusion h, eq_next (by decide)⟩

theorem test_witness_DisabledEventsAreRefused :
    faulted.fault = some .stackUnderflow ∧
    (({ faulted with inputs := [.tick 1] } : State).inputs = .tick 1 :: [] ∧
     ({ faulted with inputs := [.exec] } : State).inputs = .exec :: [] ∧
     ({ faulted with inputs := [] } : State).inputs = []) ∧
    waiting.fault = none ∧ waiting.wait = true ∧
    ({ waiting with inputs := [.exec] } : State).inputs = .exec :: [] := by decide

theorem test_witness_OnlyProgramFaultsAreRecorded :
    ({ base with inputs := [.exec] } : State).fault = none ∧
    step { base with inputs := [.exec] } =
      .next { base with fault := some (.unhandledInstruction 0#16 0x200#12) } ∧
    ({ base with fault := some (.unhandledInstruction 0#16 0x200#12) } : State).fault =
      some (.unhandledInstruction 0#16 0x200#12) :=
  ⟨by decide, eq_next (by decide), by decide⟩

theorem test_witness_PcNeverLeavesTwelveBits :
    Instr.advances (.ldImm 0#4 0#8) = true ∧ 0xFFF < (at_ base 0xFFE#12).pc.toNat + (2#12 : Addr).toNat ∧
    0xFFF < (0xF01#12 : Addr).toNat + (({ base with v := base.v.set 0 0xFF#8 } : State).reg 0#4).toNat ∧
    ({ base with stack := [0xFFE#12] } : State).stack = [] ++ [0xFFE#12] ∧
    0xFFF < (0xFFE#12 : Addr).toNat + 2 := by decide

/-- The six skips taken at 0xFFC, the lowest pc from which 4 cannot be added. -/
theorem test_witness_PcNeverLeavesTwelveBits_skips :
    0xFFF < (at_ keyDown 0xFFC#12).pc.toNat + 4 ∧
    keyDown.reg 4#4 = 15#8 ∧ keyDown.reg 4#4 ≠ 14#8 ∧ keyDown.reg 3#4 = keyDown.reg 5#4 ∧
    keyDown.reg 3#4 ≠ keyDown.reg 4#4 ∧
    ((keyDown.reg 4#4).toNat = (15#4 : Nibble).toNat ∧ keyDown.key 15#4 = true) ∧
    ((keyDown.reg 3#4).toNat = (0#4 : Nibble).toNat ∧ keyDown.key 0#4 = false) := by decide

theorem test_witness_OwnFaultsChangeNothingElse :
    base.stack = [] ∧
    (({ oneLeft with stack := [0x200#12, 0x300#12] } : State).params.stackDepth =
      some ({ oneLeft with stack := [0x200#12, 0x300#12] } : State).stack.length) ∧
    15 < (({ base with v := base.v.set 4 16#8 } : State).reg 4#4).toNat ∧
    base.params.memSize < ({ base with index := 0xFFE#16 } : State).index.toNat + 3 ∧
    base.params.memSize <
      ({ base with index := 0xFFF#16 } : State).index.toNat + ((1#4 : Nibble).toNat + 1) ∧
    (1#4 : Nibble) ≠ 0#4 ∧
    base.params.memSize < ({ base with index := 0x1000#16 } : State).index.toNat + (1#4 : Nibble).toNat := by
  decide

theorem test_witness_RegistersFrame :
    exec (.addReg 1#4 2#4) base = .next { base with v := base.v.set 15 0#8, pc := 0x202#12 } ∧
    Instr.writesReg (.addReg 1#4 2#4) 14#4 = false :=
  ⟨eq_next (by decide), by decide⟩

theorem test_witness_MemoryFrame :
    exec (.ldBVx 3#4) { base with index := 0x300#16 } =
      .next { base with index := 0x300#16, pc := 0x202#12 } ∧
    Instr.storeRange (.ldBVx 3#4) { base with index := 0x300#16 } = some (0x300, 3) ∧
    (0x2FF < 0x300 ∨ 0x300 + 3 ≤ 0x2FF) ∧ (0x303 < 0x300 ∨ 0x300 + 3 ≤ 0x303) ∧
    exec (.jp 0x300#12) base = .next { base with pc := 0x300#12 } ∧
    Instr.storeRange (.jp 0x300#12) base = none :=
  ⟨eq_next (by decide), by decide, by decide, by decide, eq_next (by decide), by decide⟩

theorem test_witness_OtherStateFrame :
    exec (.jp 0x300#12) base = .next { base with pc := 0x300#12 } ∧
    Instr.writesIndex (.jp 0x300#12) = false ∧ Instr.writesStack (.jp 0x300#12) = false ∧
    Instr.writesFb (.jp 0x300#12) = false ∧ (∀ x, Instr.jp 0x300#12 ≠ .ldDtVx x) ∧
    (∀ x, Instr.jp 0x300#12 ≠ .ldStVx x) ∧ (∀ x, Instr.jp 0x300#12 ≠ .ldVxK x) ∧
    (∀ x kk, Instr.jp 0x300#12 ≠ .rnd x kk) := by
  refine ⟨eq_next (by decide), by decide, by decide, by decide, ?_, ?_, ?_, ?_⟩ <;> simp

theorem test_witness_ResetMeetsTheInvariant : tiny.check = none := by decide

theorem test_witness_StepKeepsTheInvariant :
    ({ stored with inputs := [.press 3#4] } : State).Inv ∧
    step { stored with inputs := [.press 3#4] } =
      .next { stored with inputs := [], keys := base.keys.set 3 true } :=
  ⟨⟨by decide, by decide, by decide, by decide, by decide⟩, eq_next (by decide)⟩

theorem test_witness_ObserversAnswerFromTheState :
    (small.fbWidth ≤ 8 ∨ small.fbHeight ≤ 0) ∧ (small.fbWidth ≤ 0 ∨ small.fbHeight ≤ 4) ∧
    7 < small.fbWidth ∧ 3 < small.fbHeight ∧
    (at_ base 0xFFE#12).pc.toNat + 2 ≤ base.params.memSize ∧
    base.params.memSize < (at_ base 0xFFF#12).pc.toNat + 2 := by decide

end Sys2Proof.Tests
end

section
/-! PROOFS. The fetch (30_encoding.md R71): the word of two bytes is their concatenation, so its halves
are the two bytes; a fetch outside memory makes the step raise. -/

namespace Sys2Proof

/-- The word of two bytes is the high byte followed by the low one. -/
theorem wordOfBytes_eq_append (hi lo : Byte) : wordOfBytes hi lo = hi ++ lo := by
  rw [wordOfBytes, BitVec.append_def, BitVec.shiftLeftZeroExtend_eq, BitVec.setWidth'_eq]

@[simp] theorem wordOfBytes_high (hi lo : Byte) : (wordOfBytes hi lo).extractLsb' 8 8 = hi := by
  rw [wordOfBytes_eq_append]
  exact BitVec.extractLsb'_append_eq_left

@[simp] theorem wordOfBytes_low (hi lo : Byte) : (wordOfBytes hi lo).extractLsb' 0 8 = lo := by
  rw [wordOfBytes_eq_append]
  exact BitVec.extractLsb'_append_eq_right

namespace Machine

/-- Where nothing can be fetched, `Exec` raises and changes nothing else (R71). -/
theorem execOne_of_fetch_none {s : State} (h : s.fetch = none) :
    execOne s = raise (.memoryBoundsViolation .fetch s.pc.toNat 2) s := by
  simp only [execOne, h]

/-- Settles O6: inside memory the word fetched is that of the bytes at pc and pc + 1; outside memory
there is no word, and the step raises. -/
theorem fetchReadsHighByteFirst : Obligations.FetchReadsHighByteFirst := by
  unfold Obligations.FetchReadsHighByteFirst
  intro s
  constructor
  · intro hin
    exact ⟨_, State.fetch_of_le hin, wordOfBytes_high _ _, wordOfBytes_low _ _⟩
  · intro hout
    exact execOne_of_fetch_none (State.fetch_of_lt hout)

end Machine

end Sys2Proof
end

section
/-! PROOFS. Pattern IIII (40_iiii_system.md): the screen clear. -/

namespace Sys2Proof

namespace Machine

/-- Where the grid is the cleared one, the observer answers off at every coordinate, off the screen
too. -/
theorem State.pixel_of_cleared {s : State} (h : s.fb = clearedFrame s.params) (x y : Nat) :
    s.pixel x y = false := by
  unfold State.pixel
  split
  · rw [h]
    exact clearedFrame_pixel s.params x y
  · rfl

/-- `00E0` inside the 12-bit range: the cleared grid, and pc past the instruction (R100). -/
theorem exec_cls_of_le {s : State} (h : s.pc.toNat + 2 ≤ 0xFFF) :
    exec .cls s = .next { s with fb := clearedFrame s.params, pc := s.pc + 2#12 } :=
  advancePc_of_le (s := s.setFb (clearedFrame s.params)) h

/-- Settles O10: the next state's grid is the cleared one, which has the grid's shape and every pixel
off. -/
theorem clearScreenTurnsEveryPixelOff : Obligations.ClearScreenTurnsEveryPixelOff := by
  unfold Obligations.ClearScreenTurnsEveryPixelOff
  intro s hpc
  exact ⟨_, exec_cls_of_le hpc, rfl, clearedFrame_fits s.params,
    fun x y _ _ => State.pixel_of_cleared rfl x y⟩

end Machine

end Sys2Proof
end

section
/-! PROOFS. Pattern INNN (41_innn_address.md): the jump. Its operand is 12 bits wide, so its write of pc
never leaves the 12-bit range. -/

namespace Sys2Proof

/-- Every word with type nibble 1 is a jump to its low 12 bits: family 1 has no sub-opcode (R78). -/
theorem decodeWord_of_typeNibble_one {w : Word} (h : typeNibble w = 0x1#4) :
    decodeWord w = some (.jp (fieldNnn w)) := by
  have ht : (typeNibble w).toNat = 0x1 := by rw [h]; rfl
  simp only [decodeWord, ht]

namespace Machine

/-- A write of a 12-bit address to pc never raises (R82). -/
theorem setPc_toNat (a : Addr) (s : State) : setPc a.toNat s = .next { s with pc := a } := by
  rw [setPc_of_le (Nat.le_of_lt_succ a.isLt), BitVec.ofNat_toNat, BitVec.setWidth_eq]

/-- `1nnn` goes to nnn in every state, and changes nothing else (R105). -/
theorem exec_jp (nnn : Addr) (s : State) : exec (.jp nnn) s = .next { s with pc := nnn } :=
  setPc_toNat nnn s

/-- Settles O12: the write of pc cannot raise, and where the target is pc it writes back what was
there. -/
theorem jumpGoesToItsTarget : Obligations.JumpGoesToItsTarget := by
  unfold Obligations.JumpGoesToItsTarget
  refine ⟨fun s nnn => exec_jp nnn s, fun w hw => decodeWord_of_typeNibble_one hw, fun s => ?_⟩
  exact exec_jp s.pc s

end Machine

end Sys2Proof
end

section
/-! PROOFS. The framebuffer engine (45_ixyn_draw.md R160, R161): where a coordinate normalises to, and
the XOR of one pixel there. -/

namespace Sys2Proof

namespace Machine

variable {p : Params} {px py u v : Nat}

/-- A coordinate normalises to `(u, v)` exactly where it wraps to it, or is it and lies on the screen
(R160). -/
theorem normCoord_eq_some_iff :
    normCoord p px py = some (u, v) ↔
      (p.wrap = true ∧ u = px % p.fbWidth ∧ v = py % p.fbHeight) ∨
        (p.wrap = false ∧ px < p.fbWidth ∧ py < p.fbHeight ∧ u = px ∧ v = py) := by
  unfold normCoord
  split_ifs with hw hlt
  · simp [hw, eq_comm]
  · simp [hw, hlt, eq_comm]
  · simp only [hw, reduceCtorEq, false_iff]
    tauto

/-- Without wrap a coordinate off the screen normalises to nothing (R160). -/
theorem normCoord_eq_none (hw : p.wrap = false) (hoff : p.fbWidth ≤ px ∨ p.fbHeight ≤ py) :
    normCoord p px py = none := by
  unfold normCoord
  rw [if_neg (by simp [hw]), if_neg (by omega)]

/-- Where the coordinate normalises to nothing, the XOR of a pixel does nothing (R161). -/
theorem xorPixel_of_none (fb : Frame) (value : Bool) (h : normCoord p px py = none) :
    xorPixel p fb px py value = (fb, false) := by
  obtain ⟨-, e⟩ | ⟨u, v, -, hn, -⟩ := xorPixel_cases p fb px py value
  · exact e
  · simp [h] at hn

/-- The XOR of a true value toggles the pixel the coordinate normalises to, and reports whether it was
on (R161). -/
theorem xorPixel_true_of_some (fb : Frame) (h : normCoord p px py = some (u, v)) :
    xorPixel p fb px py true = (fb.toggle u v, fb.pixel u v) := by
  simp [xorPixel, h]

/-- Settles O38: a true value is one toggle at the normalised coordinate, and the second one reports the
pixel the first one left, the opposite of the old one. -/
theorem xorPixelTogglesOnePixel : Obligations.XorPixelTogglesOnePixel := by
  unfold Obligations.XorPixelTogglesOnePixel
  intro p fb px py hw hh hf
  refine ⟨rfl, fun hwrap hoff => xorPixel_of_none fb true (normCoord_eq_none hwrap hoff),
    fun u v huv => ?_⟩
  have hn : normCoord p px py = some (u, v) := normCoord_eq_some_iff.mpr huv
  obtain ⟨hu, hv⟩ := normCoord_lt hw hh hn
  have htoggled : (fb.toggle u v).pixel u v = !fb.pixel u v := Frame.toggle_pixel_same hf hu hv
  simp only [xorPixel_true_of_some _ hn, htoggled]
  refine ⟨trivial, trivial, fun hoff => by rw [hoff]; rfl, fun a b hab => ?_⟩
  exact Frame.toggle_pixel_other (by tauto)

end Machine

end Sys2Proof
end

section
/-! PROOFS. The key scan (60_exceptions.md R188). -/

namespace Sys2Proof

namespace Machine

/-- Settles O40: the scan's two laws, with no key down and with a lowest one; the register write of the
second is the update of the register file that the statement writes out. -/
theorem scanTakesTheLowestKey : Obligations.ScanTakesTheLowestKey := by
  unfold Obligations.ScanTakesTheLowestKey
  exact fun s => ⟨State.scanKeys_of_none, fun _ hk hlowest => State.scanKeys_of_lowest hk hlowest⟩

end Machine

end Sys2Proof
end

section
/-! PROOFS. Encoding and decoding (30_encoding.md R72, R78, R84): the fields of an encoded word are
the instruction's identifying bits and operands, and a word is determined by its fields. -/

namespace Sys2Proof

/-! ### The fields of a union and of a placed value (R72) -/

@[simp] theorem typeNibble_or (a b : Word) : typeNibble (a ||| b) = typeNibble a ||| typeNibble b :=
  BitVec.extractLsb'_or

@[simp] theorem fieldX_or (a b : Word) : fieldX (a ||| b) = fieldX a ||| fieldX b :=
  BitVec.extractLsb'_or

@[simp] theorem fieldY_or (a b : Word) : fieldY (a ||| b) = fieldY a ||| fieldY b :=
  BitVec.extractLsb'_or

@[simp] theorem fieldN_or (a b : Word) : fieldN (a ||| b) = fieldN a ||| fieldN b :=
  BitVec.extractLsb'_or

@[simp] theorem fieldKk_or (a b : Word) : fieldKk (a ||| b) = fieldKk a ||| fieldKk b :=
  BitVec.extractLsb'_or

@[simp] theorem fieldNnn_or (a b : Word) : fieldNnn (a ||| b) = fieldNnn a ||| fieldNnn b :=
  BitVec.extractLsb'_or

/-- The bits at which a value is placed are the value's own. -/
theorem extractLsb'_place_same {len : Nat} (v : BitVec len) (lo : Nat) (h : lo + len ≤ 16) :
    (v.setWidth 16 <<< lo).extractLsb' lo len = v := by
  ext k hk
  have : lo + k < 16 := by omega
  simp [this, hk]

/-- Bits that lie below or above a placed value are 0. -/
theorem extractLsb'_place_apart {wd : Nat} (v : BitVec wd) (lo start len : Nat)
    (h : start + len ≤ lo ∨ lo + wd ≤ start) :
    (v.setWidth 16 <<< lo).extractLsb' start len = 0#len := by
  ext k hk
  rcases h with h | h
  · simp [show start + k < lo by omega]
  · have : wd ≤ start + k - lo := by omega
    simp [BitVec.getLsbD_of_ge v _ this]

/-! A field at bit 0 is placed without a shift; written with one it is of the common form. -/

theorem placeN_eq_shift (n : Nibble) : placeN n = n.setWidth 16 <<< 0 :=
  (BitVec.shiftLeft_zero _).symm

theorem placeKk_eq_shift (kk : Byte) : placeKk kk = kk.setWidth 16 <<< 0 :=
  (BitVec.shiftLeft_zero _).symm

theorem placeNnn_eq_shift (nnn : Addr) : placeNnn nnn = nnn.setWidth 16 <<< 0 :=
  (BitVec.shiftLeft_zero _).symm

@[simp] theorem typeNibble_placeX (x : Nibble) : typeNibble (placeX x) = 0#4 :=
  extractLsb'_place_apart x 8 12 4 (by omega)

@[simp] theorem typeNibble_placeY (y : Nibble) : typeNibble (placeY y) = 0#4 :=
  extractLsb'_place_apart y 4 12 4 (by omega)

@[simp] theorem typeNibble_placeN (n : Nibble) : typeNibble (placeN n) = 0#4 := by
  rw [placeN_eq_shift]
  exact extractLsb'_place_apart n 0 12 4 (by omega)

@[simp] theorem typeNibble_placeKk (kk : Byte) : typeNibble (placeKk kk) = 0#4 := by
  rw [placeKk_eq_shift]
  exact extractLsb'_place_apart kk 0 12 4 (by omega)

@[simp] theorem typeNibble_placeNnn (nnn : Addr) : typeNibble (placeNnn nnn) = 0#4 := by
  rw [placeNnn_eq_shift]
  exact extractLsb'_place_apart nnn 0 12 4 (by omega)

@[simp] theorem fieldX_placeX (x : Nibble) : fieldX (placeX x) = x :=
  extractLsb'_place_same x 8 (by omega)

@[simp] theorem fieldX_placeY (y : Nibble) : fieldX (placeY y) = 0#4 :=
  extractLsb'_place_apart y 4 8 4 (by omega)

@[simp] theorem fieldX_placeN (n : Nibble) : fieldX (placeN n) = 0#4 := by
  rw [placeN_eq_shift]
  exact extractLsb'_place_apart n 0 8 4 (by omega)

@[simp] theorem fieldX_placeKk (kk : Byte) : fieldX (placeKk kk) = 0#4 := by
  rw [placeKk_eq_shift]
  exact extractLsb'_place_apart kk 0 8 4 (by omega)

@[simp] theorem fieldY_placeX (x : Nibble) : fieldY (placeX x) = 0#4 :=
  extractLsb'_place_apart x 8 4 4 (by omega)

@[simp] theorem fieldY_placeY (y : Nibble) : fieldY (placeY y) = y :=
  extractLsb'_place_same y 4 (by omega)

@[simp] theorem fieldY_placeN (n : Nibble) : fieldY (placeN n) = 0#4 := by
  rw [placeN_eq_shift]
  exact extractLsb'_place_apart n 0 4 4 (by omega)

@[simp] theorem fieldN_placeX (x : Nibble) : fieldN (placeX x) = 0#4 :=
  extractLsb'_place_apart x 8 0 4 (by omega)

@[simp] theorem fieldN_placeY (y : Nibble) : fieldN (placeY y) = 0#4 :=
  extractLsb'_place_apart y 4 0 4 (by omega)

@[simp] theorem fieldN_placeN (n : Nibble) : fieldN (placeN n) = n := by
  rw [placeN_eq_shift]
  exact extractLsb'_place_same n 0 (by omega)

@[simp] theorem fieldKk_placeX (x : Nibble) : fieldKk (placeX x) = 0#8 :=
  extractLsb'_place_apart x 8 0 8 (by omega)

@[simp] theorem fieldKk_placeKk (kk : Byte) : fieldKk (placeKk kk) = kk := by
  rw [placeKk_eq_shift]
  exact extractLsb'_place_same kk 0 (by omega)

@[simp] theorem fieldNnn_placeNnn (nnn : Addr) : fieldNnn (placeNnn nnn) = nnn := by
  rw [placeNnn_eq_shift]
  exact extractLsb'_place_same nnn 0 (by omega)

/-! ### The fields of a literal word -/

@[simp] theorem typeNibble_ofNat (n : Nat) :
    typeNibble (BitVec.ofNat 16 n) = BitVec.ofNat 4 ((n % 2 ^ 16) >>> 12) :=
  rfl

@[simp] theorem fieldX_ofNat (n : Nat) :
    fieldX (BitVec.ofNat 16 n) = BitVec.ofNat 4 ((n % 2 ^ 16) >>> 8) :=
  rfl

@[simp] theorem fieldY_ofNat (n : Nat) :
    fieldY (BitVec.ofNat 16 n) = BitVec.ofNat 4 ((n % 2 ^ 16) >>> 4) :=
  rfl

@[simp] theorem fieldN_ofNat (n : Nat) :
    fieldN (BitVec.ofNat 16 n) = BitVec.ofNat 4 ((n % 2 ^ 16) >>> 0) :=
  rfl

@[simp] theorem fieldKk_ofNat (n : Nat) :
    fieldKk (BitVec.ofNat 16 n) = BitVec.ofNat 8 ((n % 2 ^ 16) >>> 0) :=
  rfl

@[simp] theorem fieldNnn_ofNat (n : Nat) :
    fieldNnn (BitVec.ofNat 16 n) = BitVec.ofNat 12 ((n % 2 ^ 16) >>> 0) :=
  rfl

/-- Every instruction decodes from its own word: identifying bits and operands do not meet. -/
theorem decodeWord_encode (i : Instr) : decodeWord (encode i) = some i := by
  cases i <;> simp [encode, decodeWord, decodeIiii, decodeAlu, decodeKey, decodeMisc]

/-! ### A word is its fields (R72) -/

theorem fieldY_append_fieldN (w : Word) : fieldY w ++ fieldN w = fieldKk w :=
  BitVec.extractLsb'_append_extractLsb'_eq_extractLsb' rfl

theorem fieldX_append_fieldKk (w : Word) : fieldX w ++ fieldKk w = fieldNnn w :=
  BitVec.extractLsb'_append_extractLsb'_eq_extractLsb' rfl

theorem typeNibble_append_fieldNnn (w : Word) : typeNibble w ++ fieldNnn w = w :=
  (BitVec.extractLsb'_append_extractLsb'_eq_extractLsb' rfl).trans BitVec.extractLsb'_eq_self

theorem highByte_append_lowByte (w : Word) : highByte w ++ lowByte w = w :=
  (BitVec.extractLsb'_append_extractLsb'_eq_extractLsb' rfl).trans BitVec.extractLsb'_eq_self

section

variable {w w' : Word}

/-! Words with equal fields are equal, in three cuts of the word. -/

theorem word_ext_nnn (ht : typeNibble w = typeNibble w') (hnnn : fieldNnn w = fieldNnn w') :
    w = w' := by
  rw [← typeNibble_append_fieldNnn w, ← typeNibble_append_fieldNnn w', ht, hnnn]

theorem word_ext_x_kk (ht : typeNibble w = typeNibble w') (hx : fieldX w = fieldX w')
    (hkk : fieldKk w = fieldKk w') : w = w' :=
  word_ext_nnn ht (by rw [← fieldX_append_fieldKk w, ← fieldX_append_fieldKk w', hx, hkk])

theorem word_ext_x_y_n (ht : typeNibble w = typeNibble w') (hx : fieldX w = fieldX w')
    (hy : fieldY w = fieldY w') (hn : fieldN w = fieldN w') : w = w' :=
  word_ext_x_kk ht hx (by rw [← fieldY_append_fieldN w, ← fieldY_append_fieldN w', hy, hn])

/-- The two bytes of a word, high byte first, spell it (R71, R84). -/
theorem wordOfBytes_high_low (w : Word) : wordOfBytes (highByte w) (lowByte w) = w := by
  rw [wordOfBytes_eq_append, highByte_append_lowByte]

/-! ### A handled word is the encoding of what it decodes to (R84) -/

/-- A nibble is the literal of its number. -/
theorem nibble_eq_ofNat {n : Nibble} {k : Nat} (h : n.toNat = k) : n = BitVec.ofNat 4 k := by
  rw [← h, BitVec.ofNat_toNat, BitVec.setWidth_eq]

/-- The `0x8` family: `sub4` is part of the encoding of every instruction it selects. -/
theorem encode_of_decodeAlu {x y sub4 : Nibble} {i : Instr} (h : decodeAlu x y sub4 = some i) :
    encode i = 0x8000#16 ||| placeX x ||| placeY y ||| placeN sub4 := by
  unfold decodeAlu at h
  split at h <;> cases h
  all_goals
    next hn =>
    obtain rfl := nibble_eq_ofNat hn
    apply word_ext_x_y_n <;> simp [encode]

/-- The `0xE` family: `sub8` is part of the encoding of every instruction it selects. -/
theorem encode_of_decodeKey {x : Nibble} {sub8 : Byte} {i : Instr}
    (h : decodeKey x sub8 = some i) :
    encode i = 0xE000#16 ||| placeX x ||| placeKk sub8 := by
  unfold decodeKey at h
  split_ifs at h <;> cases h
  all_goals
    subst sub8
    apply word_ext_x_kk <;> simp [encode]

/-- The `0xF` family: `sub8` is part of the encoding of every instruction it selects. -/
theorem encode_of_decodeMisc {x : Nibble} {sub8 : Byte} {i : Instr}
    (h : decodeMisc x sub8 = some i) :
    encode i = 0xF000#16 ||| placeX x ||| placeKk sub8 := by
  unfold decodeMisc at h
  split_ifs at h <;> cases h
  all_goals
    subst sub8
    apply word_ext_x_kk <;> simp [encode]

/-- A handled word is the encoding of what it decodes to: the two agree in every field. -/
theorem encode_of_decodeWord {i : Instr} (h : decodeWord w = some i) : encode i = w := by
  unfold decodeWord at h
  split at h
  case h_1 ht =>
    unfold decodeIiii at h
    split_ifs at h with h1 h2 <;> cases h
    · apply word_ext_nnn <;> simp [encode, nibble_eq_ofNat ht, h1]
    · apply word_ext_nnn <;> simp [encode, nibble_eq_ofNat ht, h2]
  case h_2 ht | h_3 ht | h_11 ht | h_12 ht =>
    cases h
    apply word_ext_nnn <;> simp [encode, nibble_eq_ofNat ht]
  case h_4 ht | h_5 ht | h_7 ht | h_8 ht | h_13 ht =>
    cases h
    apply word_ext_x_kk <;> simp [encode, nibble_eq_ofNat ht]
  case h_6 ht | h_10 ht =>
    split_ifs at h with hn
    cases h
    apply word_ext_x_y_n <;> simp [encode, nibble_eq_ofNat ht, hn]
  case h_9 ht =>
    rw [encode_of_decodeAlu h]
    apply word_ext_x_y_n <;> simp [nibble_eq_ofNat ht]
  case h_14 ht =>
    cases h
    apply word_ext_x_y_n <;> simp [encode, nibble_eq_ofNat ht]
  case h_15 ht =>
    rw [encode_of_decodeKey h]
    apply word_ext_x_kk <;> simp [nibble_eq_ofNat ht]
  case h_16 ht =>
    rw [encode_of_decodeMisc h]
    apply word_ext_x_kk <;> simp [nibble_eq_ofNat ht]
  case h_17 => cases h

end

/-- Settles O1: the two bytes spell the word again, and the word decodes to the instruction. -/
theorem decodeOfEncodeIsTheInstruction : Obligations.DecodeOfEncodeIsTheInstruction := by
  unfold Obligations.DecodeOfEncodeIsTheInstruction
  intro i rest
  refine ⟨decodeWord_encode i, ?_⟩
  simp only [encodeBytes, List.cons_append, List.nil_append, decode, wordOfBytes_high_low,
    decodeWord_encode]

/-- Settles O2: each family's encoding has the bits that decoding read. -/
theorem encodeOfDecodeIsTheWord : Obligations.EncodeOfDecodeIsTheWord := by
  unfold Obligations.EncodeOfDecodeIsTheWord
  exact fun w i => encode_of_decodeWord

end Sys2Proof
end

section
/-! PROOFS. The opcode map (30_encoding.md R78): a row's match and mask fix the fields that decoding
reads. -/

namespace Sys2Proof

/-! ### Fields under a mask -/

@[simp] theorem typeNibble_and (a b : Word) :
    typeNibble (a &&& b) = typeNibble a &&& typeNibble b :=
  BitVec.extractLsb'_and

@[simp] theorem fieldX_and (a b : Word) : fieldX (a &&& b) = fieldX a &&& fieldX b :=
  BitVec.extractLsb'_and

@[simp] theorem fieldY_and (a b : Word) : fieldY (a &&& b) = fieldY a &&& fieldY b :=
  BitVec.extractLsb'_and

@[simp] theorem fieldN_and (a b : Word) : fieldN (a &&& b) = fieldN a &&& fieldN b :=
  BitVec.extractLsb'_and

@[simp] theorem fieldKk_and (a b : Word) : fieldKk (a &&& b) = fieldKk a &&& fieldKk b :=
  BitVec.extractLsb'_and

@[simp] theorem fieldNnn_and (a b : Word) : fieldNnn (a &&& b) = fieldNnn a &&& fieldNnn b :=
  BitVec.extractLsb'_and

@[simp] theorem nibble_and_full (n : Nibble) : n &&& 0xF#4 = n := BitVec.and_allOnes

@[simp] theorem byte_and_full (b : Byte) : b &&& 0xFF#8 = b := BitVec.and_allOnes

@[simp] theorem addr_and_full (a : Addr) : a &&& 0xFFF#12 = a := BitVec.and_allOnes

/-! ### Rows and words -/

theorem OpcodeRow.selects_iff {r : OpcodeRow} {w : Word} :
    r.selects w = true ↔ w &&& r.mask = r.pattern := beq_iff_eq

/-- Any two rows differ in an identifying bit that both have. -/
theorem opcodeRows_pairwise_apart :
    opcodeRows.Pairwise fun r r' => r.pattern &&& r'.mask ≠ r'.pattern &&& r.mask := by
  decide

/-- Rows that one word selects agree on the bits that identify both. -/
theorem OpcodeRow.agree_of_selects {r r' : OpcodeRow} {w : Word} (h : r.selects w = true)
    (h' : r'.selects w = true) : r.pattern &&& r'.mask = r'.pattern &&& r.mask := by
  rw [← selects_iff.1 h, ← selects_iff.1 h', BitVec.and_assoc, BitVec.and_assoc,
    BitVec.and_comm r.mask]

/-- No word selects two rows. -/
theorem eq_of_selects {r r' : OpcodeRow} {w : Word} (hr : r ∈ opcodeRows) (hr' : r' ∈ opcodeRows)
    (h : r.selects w = true) (h' : r'.selects w = true) : r = r' := by
  have : Std.Symm fun r r' : OpcodeRow => r.pattern &&& r'.mask ≠ r'.pattern &&& r.mask :=
    ⟨fun _ _ h => h.symm⟩
  by_contra hne
  exact opcodeRows_pairwise_apart.forall hr hr' hne (OpcodeRow.agree_of_selects h h')

/-- A word that selects a row decodes to an instruction of it: the row's match gives the fields
under its mask, and those are the fields that decoding reads. -/
theorem decodeWord_of_selects {r : OpcodeRow} {w : Word} (hr : r ∈ opcodeRows)
    (h : r.selects w = true) : ∃ i, decodeWord w = some i ∧ i.mnemonic = r.mnemonic := by
  rw [OpcodeRow.selects_iff] at h
  have ht := congrArg typeNibble h
  have hn := congrArg fieldN h
  have hkk := congrArg fieldKk h
  have hnnn := congrArg fieldNnn h
  fin_cases hr
  all_goals
    simp at ht hn hkk hnnn
    simp [decodeWord, decodeIiii, decodeAlu, decodeKey, decodeMisc, ht, hn, hkk, hnnn,
      Instr.mnemonic]

/-- Every instruction's word selects the row of its mnemonic: the operands lie outside the row's
mask. -/
theorem exists_row_selects_encode (i : Instr) :
    ∃ r ∈ opcodeRows, r.mnemonic = i.mnemonic ∧ r.selects (encode i) = true := by
  cases i <;> simp [opcodeRows, opcodeRowsAddress, opcodeRowsRegister, opcodeRowsSystem,
    OpcodeRow.selects_iff, Instr.mnemonic]
  case cls | ret => simp [encode]
  case jp | call | ldi | jpv0 => apply word_ext_nnn <;> simp [encode]
  case seReg | sneReg | ldReg | orReg | andReg | xorReg | addReg | sub | shr | subn | shl | drw =>
    apply word_ext_x_y_n <;> simp [encode]
  all_goals apply word_ext_x_kk <;> simp [encode]

/-- Settles O3: the rows' masks meet in a differing bit, and the row of an instruction is that of
its word, which a handled word is. -/
theorem opcodeMapDecidesDecoding : Obligations.OpcodeMapDecidesDecoding := by
  unfold Obligations.OpcodeMapDecidesDecoding
  refine ⟨rfl, fun w r r' => eq_of_selects, fun w r => decodeWord_of_selects, fun w i h => ?_⟩
  obtain rfl := encode_of_decodeWord h
  exact exists_row_selects_encode i

end Sys2Proof
end

section
/-! PROOFS. The Codec's field access (30_encoding.md R72, R74, R75, R84): a setter replaces the bits
of one field; everything else it keeps follows from the bits it leaves alone. -/

namespace Sys2Proof

/-! ### Field access (R72, R74, R75, R84) -/

/-- The value of a field is the number its bits spell. -/
theorem Field.extract_eq (f : Field) (w : Word) :
    f.extract w = (w.extractLsb' f.lo f.width).toNat := by
  rw [Field.extract, BitVec.extractLsb'_toNat, Nat.shiftRight_eq_div_pow]

/-- Every top nibble has a pattern (R74). -/
theorem exists_patternOf (t : Nibble) : ∃ p, patternOf t = some p :=
  Option.isSome_iff_exists.1 ((by decide : ∀ t, (patternOf t).isSome = true) t)

section

variable {w : Word} {f : Field} {p : Pattern} {v : Nat} (hp : patternOf (typeNibble w) = some p)
include hp

theorem readField_of_mem (h : f ∈ p.uses) : readField w f = .ok (f.extract w) := by
  simp [readField, hp, h]

theorem readField_of_not_mem (h : f ∉ p.uses) :
    readField w f = .error (.fieldAccessViolation f p) := by
  simp [readField, hp, h]

theorem writeField_of_not_mem (h : f ∉ p.uses) :
    writeField w f v = .error (.fieldAccessViolation f p) := by
  simp [writeField, hp, h]

theorem writeField_of_not_fits (h : f ∈ p.uses) (hv : f.fits v = false) :
    writeField w f v = .error (.outOfRange f v) := by
  simp [writeField, hp, h, hv]

/-- A setter that is not refused answers a word. -/
theorem writeField_of_fits (h : f ∈ p.uses) (hv : f.fits v = true) :
    writeField w f v = .ok (BitVec.ofNat 16 (w.toNat - f.extract w * 2 ^ f.lo + v * 2 ^ f.lo)) := by
  simp [writeField, hp, h, hv]

end

/-- The bits of a number in which bits `lo` to `lo + wd - 1` are replaced by those of `v`. -/
theorem testBit_replace {n lo wd v : Nat} (hv : v < 2 ^ wd) (k : Nat) :
    (n - n / 2 ^ lo % 2 ^ wd * 2 ^ lo + v * 2 ^ lo).testBit k =
      if lo ≤ k ∧ k < lo + wd then v.testBit (k - lo) else n.testBit k := by
  have hlow : n % 2 ^ lo < 2 ^ lo := Nat.mod_lt _ (Nat.two_pow_pos lo)
  have hsplit : n - n / 2 ^ lo % 2 ^ wd * 2 ^ lo + v * 2 ^ lo =
      2 ^ lo * (2 ^ wd * (n / 2 ^ lo / 2 ^ wd) + v) + n % 2 ^ lo := by
    have h1 := Nat.div_add_mod n (2 ^ lo)
    have h2 := Nat.div_add_mod (n / 2 ^ lo) (2 ^ wd)
    set q := n / 2 ^ lo
    set r := n % 2 ^ lo
    have : n = 2 ^ lo * (2 ^ wd * (q / 2 ^ wd)) + q % 2 ^ wd * 2 ^ lo + r := by
      rw [mul_comm (q % 2 ^ wd), ← Nat.mul_add, h2, h1]
    rw [Nat.mul_add, mul_comm v]
    omega
  rw [hsplit, Nat.testBit_two_pow_mul_add _ hlow, Nat.testBit_two_pow_mul_add _ hv]
  split_ifs with h1 h2 h3 h4
  · omega
  · simp [Nat.testBit_mod_two_pow, h1]
  · rfl
  · omega
  · omega
  · rw [Nat.testBit_div_two_pow, Nat.testBit_div_two_pow]
    congr 1
    omega

section

variable {w w' : Word} {f : Field} {v : Nat}

/-- `w'` is `w` with one field replaced: that field's bits are the value's, every other bit is
`w`'s. -/
def Field.Replaced (f : Field) (v : Nat) (w w' : Word) : Prop :=
  ∀ k, w'.getLsbD k = if f.lo ≤ k ∧ k < f.lo + f.width then v.testBit (k - f.lo) else w.getLsbD k

/-- Every field ends inside the word, and below the type nibble. -/
theorem Field.end_le (f : Field) : f.lo + f.width ≤ 12 := by cases f <;> decide

/-- The word a setter computes by subtraction and addition is the word with the field replaced. -/
theorem Field.replaced_ofNat (hv : f.fits v = true) :
    f.Replaced v w (BitVec.ofNat 16 (w.toNat - f.extract w * 2 ^ f.lo + v * 2 ^ f.lo)) := by
  intro k
  have := f.end_le
  have hv : v < 2 ^ f.width := of_decide_eq_true hv
  rw [BitVec.getLsbD_ofNat, Field.extract, testBit_replace hv]
  by_cases hk : k < 16
  · simp [hk, BitVec.testBit_toNat]
  · have : ¬ k < f.lo + f.width := by omega
    simp [hk, this, BitVec.getLsbD_of_ge w k (by omega)]

/-- The replaced field reads as the value. -/
theorem Field.Replaced.extract_same (h : f.Replaced v w w') (hv : f.fits v = true) :
    f.extract w' = v := by
  have hv : v < 2 ^ f.width := of_decide_eq_true hv
  have : w'.extractLsb' f.lo f.width = BitVec.ofNat f.width v := by
    ext k hk
    simp [h (f.lo + k), hk, ← BitVec.getLsbD_eq_getElem, BitVec.getLsbD_ofNat]
  rw [Field.extract_eq, this, BitVec.toNat_ofNat, Nat.mod_eq_of_lt hv]

/-- Bits below or above the replaced field are unchanged. -/
theorem Field.Replaced.extractLsb'_apart (h : f.Replaced v w w') {start len : Nat}
    (ha : start + len ≤ f.lo ∨ f.lo + f.width ≤ start) :
    w'.extractLsb' start len = w.extractLsb' start len := by
  ext k hk
  rw [BitVec.getElem_extractLsb', BitVec.getElem_extractLsb', h, if_neg (by omega)]

/-- Bits of two fields do not meet. -/
def Field.Apart (f g : Field) : Prop := f.lo + f.width ≤ g.lo ∨ g.lo + g.width ≤ f.lo

/-- No two fields of one pattern share a bit (R72, R73). -/
theorem Pattern.apart_of_mem_uses {p : Pattern} {f g : Field} (hf : f ∈ p.uses) (hg : g ∈ p.uses)
    (hne : f ≠ g) : f.Apart g := by
  have hp : p.uses.Pairwise Field.Apart := by
    unfold Field.Apart
    cases p <;> decide
  have : Std.Symm Field.Apart := ⟨fun _ _ => Or.symm⟩
  exact hp.forall hf hg hne

end

/-- Settles O5: a setter's word differs in the bits of its field alone, and no other field, nor the
type nibble, nor a sub-opcode, has a bit there. -/
theorem codecReadsAndWritesFields : Obligations.CodecReadsAndWritesFields := by
  unfold Obligations.CodecReadsAndWritesFields
  refine ⟨fun w => ⟨Field.extract_eq .nnn w, rfl, Field.extract_eq .x w, rfl,
    Field.extract_eq .y w, rfl, Field.extract_eq .kk w, rfl, Field.extract_eq .n w, rfl, rfl⟩,
    fun w f => ?_⟩
  obtain ⟨p, hp⟩ := exists_patternOf (typeNibble w)
  refine ⟨p, hp, readField_of_mem hp, readField_of_not_mem hp, fun v => ⟨writeField_of_not_mem hp,
    writeField_of_not_fits hp, fun hf hv => ?_⟩⟩
  have hw := Field.replaced_ofNat (w := w) hv
  refine ⟨_, writeField_of_fits hp hf hv, ?_⟩
  generalize BitVec.ofNat 16 _ = w' at hw ⊢
  have ht : typeNibble w' = typeNibble w := hw.extractLsb'_apart (.inr f.end_le)
  have hp' : patternOf (typeNibble w') = some p := by rw [ht, hp]
  refine ⟨?_, ht, fun g hg hne => ?_, ?_, ?_, fun k hk => ?_⟩
  · rw [readField_of_mem hp' hf, hw.extract_same hv]
  · rw [readField_of_mem hp' hg, readField_of_mem hp hg, Field.extract_eq, Field.extract_eq,
      hw.extractLsb'_apart (Pattern.apart_of_mem_uses hg hf hne)]
  · rintro rfl
    obtain rfl | rfl : f = .x ∨ f = .y := by simpa [Pattern.uses] using hf
    all_goals exact hw.extractLsb'_apart (.inl (by decide))
  · rintro rfl
    obtain rfl := List.mem_singleton.1 hf
    exact hw.extractLsb'_apart (.inl (by decide))
  · rw [hw k, if_neg (by omega)]

end Sys2Proof
end

section
/-! PROOFS. The normal form of `exec`: an instruction either raises its own fault and nothing else,
or does its writes and then writes pc (30_encoding.md R80 to R82, 60_exceptions.md R176). The three
parts are functions of their own, tied to `exec` by `exec_eq_normalForm`; what `exec` keeps is read
off them. -/

namespace Sys2Proof

open Machine

/-- The fault an instruction raises of itself, before any write (60_exceptions.md R170, R176). -/
def Instr.ownFault (i : Instr) (s : State) : Option FaultRecord :=
  match i with
  | .ret => if s.stack = [] then some .stackUnderflow else none
  | .call _ => if s.stackFull then some .stackOverflow else none
  | .skp x | .sknp x => if 15 < (s.reg x).toNat then some (.keyIndexOutOfRange (s.reg x)) else none
  | .ldBVx _ =>
    if s.outside s.index.toNat 3 then
      some (.memoryBoundsViolation .dataWrite s.index.toNat 3) else none
  | .stRegs x =>
    if s.outside s.index.toNat (x.toNat + 1) then
      some (.memoryBoundsViolation .dataWrite s.index.toNat (x.toNat + 1)) else none
  | .ldRegs x =>
    if s.outside s.index.toNat (x.toNat + 1) then
      some (.memoryBoundsViolation .dataRead s.index.toNat (x.toNat + 1)) else none
  | .drw _ _ n =>
    if n ≠ 0#4 ∧ s.outside s.index.toNat n.toNat then
      some (.memoryBoundsViolation .dataRead s.index.toNat n.toNat) else none
  | _ => none

/-- The `n` bytes at an address. -/
def Machine.State.bytesFrom (s : State) (a n : Nat) : List Byte :=
  (List.range n).map fun j => s.byte (a + j)

/-- The state with an instruction's writes done, pc apart. A return's popped address is among them.
-/
def Instr.effect (i : Instr) (s : State) : State :=
  match i with
  | .cls => s.setFb (clearedFrame s.params)
  | .ret => { s with stack := s.stack.dropLast, pc := s.stack.getLast?.getD s.pc }
  | .call _ => { s with stack := s.stack ++ [s.pc] }
  | .ldi nnn => s.setIndex (indexOfAddr nnn)
  | .ldImm x kk => s.setReg x kk
  | .addImm x kk => s.setReg x (addResult (s.reg x) kk)
  | .rnd x kk => (s.setReg x (Config.randomByte s.draws &&& kk)).countDraw
  | .ldReg x y => s.setReg x (s.reg y)
  | .orReg x y => s.setReg x (s.reg x ||| s.reg y)
  | .andReg x y => s.setReg x (s.reg x &&& s.reg y)
  | .xorReg x y => s.setReg x (s.reg x ^^^ s.reg y)
  | .addReg x y => s.resultThenFlag x (addResult (s.reg x) (s.reg y)) (addCarry (s.reg x) (s.reg y))
  | .sub x y => s.resultThenFlag x (subResult (s.reg x) (s.reg y)) (noBorrow (s.reg x) (s.reg y))
  | .shr x y => s.flagThenResult x (shrResult (s.reg y)) (shrOut (s.reg y))
  | .subn x y => s.resultThenFlag x (subResult (s.reg y) (s.reg x)) (noBorrow (s.reg y) (s.reg x))
  | .shl x y => s.flagThenResult x (shlResult (s.reg y)) (shlOut (s.reg y))
  | .ldVxDt x => s.setReg x s.delay.value
  | .ldDtVx x => s.setDelayValue (s.reg x)
  | .ldStVx x => s.setSoundValue (s.reg x)
  | .ldVxK x => s.enterWait x
  | .addIVx x => s.setIndex (s.indexPlus x)
  | .ldFVx x => s.setIndex (s.fontAddress x)
  | .ldBVx x => s.storeBytes s.index.toNat (bcdDigits (s.reg x))
  | .stRegs x => s.storeBytes s.index.toNat (s.firstRegs x)
  | .ldRegs x => s.loadRegs (s.bytesFrom s.index.toNat (x.toNat + 1))
  | .drw x y n => s.drawAt x y (s.bytesFrom s.index.toNat n.toNat)
  | _ => s

/-- The condition of a skip; false for every other instruction (30_encoding.md R81). -/
def Instr.skipTaken (i : Instr) (s : State) : Bool :=
  match i with
  | .seImm x kk => s.reg x == kk
  | .sneImm x kk => s.reg x != kk
  | .seReg x y => s.reg x == s.reg y
  | .sneReg x y => s.reg x != s.reg y
  | .skp x => s.key ((s.reg x).setWidth 4)
  | .sknp x => !s.key ((s.reg x).setWidth 4)
  | _ => false

/-- The value an instruction writes to pc, unbounded (30_encoding.md R81, R82). -/
def Instr.target (i : Instr) (s : State) : Nat :=
  match i with
  | .jp nnn | .call nnn => nnn.toNat
  | .jpv0 nnn => s.indexedTarget nnn
  | _ => (i.effect s).pc.toNat + if i.skipTaken s then 4 else 2

namespace Machine


@[simp] theorem bcdDigits_length (b : Byte) : (bcdDigits b).length = 3 := rfl

@[simp] theorem State.firstRegs_length (s : State) (x : Nibble) :
    (s.firstRegs x).length = x.toNat + 1 := by
  simpa [State.firstRegs] using x.isLt

/-- A store of `n` bytes is checked over `n` bytes (20_memory.md R51). -/
theorem State.memWrite_eq_ite {s : State} {a n : Nat} {bs : List Byte} (h : bs.length = n) :
    s.memWrite a bs = if s.outside a n then none else some (s.storeBytes a bs) := by
  subst h
  rfl

/-- An instruction raises its own fault, or does its writes and then writes pc. -/
theorem exec_eq_normalForm (i : Instr) (s : State) :
    exec i s = match i.ownFault s with
      | some r => raise r s
      | none => setPc (i.target s) (i.effect s) := by
  cases i with
  | ret =>
    obtain ⟨h, hp⟩ | ⟨l, a, h, hp⟩ := s.pop_cases
    · simp [exec, execRet, hp, Instr.ownFault, h]
    · simp [exec, execRet, hp, Instr.ownFault, Instr.effect, Instr.target, Instr.skipTaken, h,
        advancePc]
  | call nnn =>
    simp only [exec, execCall, State.push, Instr.ownFault]
    split_ifs <;> rfl
  | skp x | sknp x =>
    simp only [exec, execSkp, execSknp, State.keyNumber, Instr.ownFault]
    split_ifs <;> rfl
  | ldBVx x =>
    simp only [exec, execLdBVx, State.memWrite_eq_ite (bcdDigits_length _), Instr.ownFault]
    split_ifs <;> rfl
  | stRegs x =>
    simp only [exec, execStRegs, State.memWrite_eq_ite (State.firstRegs_length ..), Instr.ownFault]
    split_ifs <;> rfl
  | ldRegs x =>
    simp only [exec, execLdRegs, State.memRead, Instr.ownFault]
    split_ifs <;> rfl
  | drw x y n =>
    by_cases hn : n = 0#4
    · subst hn
      rfl
    · simp only [exec, execDrw, State.spriteRows, State.memRead, Instr.ownFault, ne_eq, hn,
        if_false, not_false_eq_true, true_and]
      split_ifs <;> rfl
  | _ => rfl

section

variable {i : Instr} {s t : State} {r : FaultRecord}

/-! ### What an instruction can answer -/

theorem exec_of_ownFault (h : i.ownFault s = some r) :
    exec i s = .next { s with fault := some r } := by
  rw [exec_eq_normalForm, h]
  rfl

theorem exec_of_no_ownFault (h : i.ownFault s = none) :
    exec i s = setPc (i.target s) (i.effect s) := by
  rw [exec_eq_normalForm, h]

/-- Every fault of the normal form is one a program can cause. -/
theorem raisedByExec_of_ownFault (h : i.ownFault s = some r) : r.raisedByExec = true := by
  cases i with
  | ret | call | skp | sknp | ldBVx | stRegs | ldRegs | drw =>
    simp only [Instr.ownFault, Option.ite_none_right_eq_some, Option.some.injEq] at h
    rw [← h.2]
    rfl
  | _ => cases h

/-- What an instruction answers is the state itself or the one with its writes done, but for pc and
FAULT; and FAULT is kept or holds a fault that a program can cause. -/
theorem exec_next (h : exec i s = .next t) :
    ∃ u, (u = s ∨ (i.ownFault s = none ∧ u = i.effect s)) ∧
      t = { u with pc := t.pc, fault := t.fault } ∧
      (t.fault = u.fault ∨ ∃ r, t.fault = some r ∧ r.raisedByExec = true) := by
  cases hf : i.ownFault s with
  | some r =>
    rw [exec_of_ownFault hf] at h
    cases h
    exact ⟨s, .inl rfl, rfl, .inr ⟨r, rfl, raisedByExec_of_ownFault hf⟩⟩
  | none =>
    rw [exec_of_no_ownFault hf] at h
    refine ⟨i.effect s, .inr ⟨rfl, rfl⟩, ?_⟩
    obtain ⟨-, e⟩ | ⟨-, e⟩ := setPc_cases (i.target s) (i.effect s)
    · rw [e] at h
      cases h
      exact ⟨rfl, .inl rfl⟩
    · rw [e] at h
      cases h
      exact ⟨rfl, .inr ⟨_, rfl, rfl⟩⟩

/-! ### The instructions that advance pc -/

/-- An advancing instruction does not write pc before its advance. -/
theorem effect_pc (ha : i.advances = true) : (i.effect s).pc = s.pc := by
  cases i with
  | ret | jp | call | jpv0 => cases ha
  | _ => rfl

theorem target_of_advances (ha : i.advances = true) :
    i.target s = s.pc.toNat + if i.skipTaken s then 4 else 2 := by
  rw [← effect_pc ha]
  cases i with
  | jp | call | jpv0 => cases ha
  | _ => rfl

theorem skipTaken_of_not_skips (h : i.skips = false) : i.skipTaken s = false := by
  cases i with
  | seImm | sneImm | seReg | sneReg | skp | sknp => cases h
  | _ => rfl

/-- Inside the 12-bit range an advancing instruction does its writes and adds 2 to pc, or 4 for a
taken skip. -/
theorem exec_advance (ha : i.advances = true) (hf : i.ownFault s = none)
    (hpc : s.pc.toNat + (if i.skipTaken s then 4 else 2) ≤ 0xFFF) :
    exec i s = .next { i.effect s with pc := s.pc + if i.skipTaken s then 4#12 else 2#12 } := by
  rw [exec_of_no_ownFault hf, target_of_advances ha, setPc_of_le hpc, BitVec.ofNat_add,
    BitVec.ofNat_toNat, BitVec.setWidth_eq, apply_ite (BitVec.ofNat 12)]

/-- Where the advance leaves the 12-bit range the writes are done, pc is kept and the fault
recorded. -/
theorem exec_advance_off (ha : i.advances = true) (hf : i.ownFault s = none) {k : Nat}
    (hk : (if i.skipTaken s then 4 else 2) = k) (hpc : 0xFFF < s.pc.toNat + k) :
    exec i s = .next { i.effect s with
      fault := some (.memoryBoundsViolation .pcRange (s.pc.toNat + k) 2) } := by
  rw [exec_of_no_ownFault hf, target_of_advances ha, hk, setPc_of_lt hpc]

/-- An instruction that advances and does not skip adds 2 to pc. -/
theorem exec_advance_two (ha : i.advances = true) (hs : i.skips = false) (hf : i.ownFault s = none)
    (hpc : s.pc.toNat + 2 ≤ 0xFFF) : exec i s = .next { i.effect s with pc := s.pc + 2#12 } := by
  have hskip : i.skipTaken s = false := skipTaken_of_not_skips hs
  have h := exec_advance ha hf (by rw [hskip]; exact hpc)
  rw [hskip] at h
  exact h

end

end Machine
end Sys2Proof
end

section
/-! PROOFS. The frames (10_state.md R21, R39; 20_memory.md R52): what the writes of an instruction
leave alone, and so what `exec` does. -/

namespace Sys2Proof.Machine

variable {i : Instr} {s t : State}

/-! ### What the writes of an instruction keep -/

@[simp] theorem effect_params (i : Instr) (s : State) : (i.effect s).params = s.params := by
  cases i <;> rfl

@[simp] theorem effect_keys (i : Instr) (s : State) : (i.effect s).keys = s.keys := by
  cases i <;> rfl

@[simp] theorem effect_inputs (i : Instr) (s : State) : (i.effect s).inputs = s.inputs := by
  cases i <;> rfl

@[simp] theorem effect_loadReport (i : Instr) (s : State) :
    (i.effect s).loadReport = s.loadReport := by
  cases i <;> rfl

@[simp] theorem effect_fault (i : Instr) (s : State) : (i.effect s).fault = s.fault := by
  cases i <;> rfl

@[simp] theorem effect_delay_elapsed (i : Instr) (s : State) :
    (i.effect s).delay.elapsed = s.delay.elapsed := by
  cases i <;> rfl

@[simp] theorem effect_sound_elapsed (i : Instr) (s : State) :
    (i.effect s).sound.elapsed = s.sound.elapsed := by
  cases i <;> rfl

theorem effect_index (h : i.writesIndex = false) : (i.effect s).index = s.index := by
  cases i with
  | ldi | addIVx | ldFVx => cases h
  | _ => rfl

theorem effect_stack (h : i.writesStack = false) : (i.effect s).stack = s.stack := by
  cases i with
  | ret | call => cases h
  | _ => rfl

theorem effect_fb (h : i.writesFb = false) : (i.effect s).fb = s.fb := by
  cases i with
  | cls | drw => cases h
  | _ => rfl

theorem effect_delay (h : ∀ x, i ≠ .ldDtVx x) : (i.effect s).delay = s.delay := by
  cases i with
  | ldDtVx x => exact absurd rfl (h x)
  | _ => rfl

theorem effect_sound (h : ∀ x, i ≠ .ldStVx x) : (i.effect s).sound = s.sound := by
  cases i with
  | ldStVx x => exact absurd rfl (h x)
  | _ => rfl

theorem effect_wait_wreg (h : ∀ x, i ≠ .ldVxK x) :
    (i.effect s).wait = s.wait ∧ (i.effect s).wreg = s.wreg := by
  cases i with
  | ldVxK x => exact absurd rfl (h x)
  | _ => exact ⟨rfl, rfl⟩

theorem effect_draws (h : ∀ x kk, i ≠ .rnd x kk) : (i.effect s).draws = s.draws := by
  cases i with
  | rnd x kk => exact absurd rfl (h x kk)
  | _ => rfl

theorem effect_mem (h : i.storeRange s = none) : (i.effect s).mem = s.mem := by
  cases i with
  | ldBVx | stRegs => cases h
  | _ => rfl

/-- The two stores change no byte outside their range. -/
theorem effect_byte_outside {a b n : Nat} (h : i.storeRange s = some (b, n))
    (ha : a < b ∨ b + n ≤ a) :
    (i.effect s).byte a = s.byte a := by
  cases i with
  | ldBVx x =>
    cases h
    exact State.storeBytes_byte_outside ha
  | stRegs x =>
    cases h
    exact State.storeBytes_byte_outside (by simpa using ha)
  | _ => cases h

theorem effect_reg {r : Nibble} (h : i.writesReg r = false) : (i.effect s).reg r = s.reg r := by
  cases i with
  | ldImm x | addImm x | rnd x | ldReg x | orReg x | andReg x | xorReg x | ldVxDt x =>
    exact State.setReg_reg_other _ _ _ _ (by simpa [Instr.writesReg] using h)
  | addReg x | sub x | shr x | subn x | shl x =>
    obtain ⟨hx, hf⟩ : r ≠ x ∧ r ≠ 15#4 := by simpa [Instr.writesReg] using h
    simp [Instr.effect, State.resultThenFlag, State.flagThenResult, State.setReg_reg, hx, hf]
  | ldRegs x =>
    have hr : ¬ r.toNat ≤ x.toNat := by simpa [Instr.writesReg] using h
    rw [Instr.effect, State.loadRegs_reg, List.getElem?_eq_none (by simp [State.bytesFrom]; omega)]
    rfl
  | drw x y n => exact State.setReg_reg_other _ _ _ _ (by simpa [Instr.writesReg] using h)
  | _ => rfl

/-! ### What `exec` keeps -/

/-- Settles O54: a register outside the table of writes is outside the writes of the instruction. -/
theorem registersFrame : Obligations.RegistersFrame := by
  unfold Obligations.RegistersFrame
  intro i s t r h hr
  obtain ⟨u, hu, ht, -⟩ := exec_next h
  have hreg : t.reg r = u.reg r := by
    rw [ht]
    rfl
  obtain rfl | ⟨-, rfl⟩ := hu
  · exact hreg
  · rw [hreg, effect_reg hr]

/-- Settles O55: the stores are the only writes to memory, each inside its range. -/
theorem memoryFrame : Obligations.MemoryFrame := by
  unfold Obligations.MemoryFrame
  intro i s t h
  obtain ⟨u, hu, ht, -⟩ := exec_next h
  have hbyte (a : Nat) : t.byte a = u.byte a := by
    rw [ht]
    rfl
  obtain rfl | ⟨-, rfl⟩ := hu
  · exact ⟨fun _ a => hbyte a, fun _ _ _ a _ => hbyte a⟩
  · refine ⟨fun hn a => ?_, fun b n hbn a ha => ?_⟩
    · rw [hbyte, State.byte, State.byte, effect_params, effect_mem hn]
    · rw [hbyte, effect_byte_outside hbn ha]

/-- Settles O56: each part is one of what the writes of an instruction keep. -/
theorem otherStateFrame : Obligations.OtherStateFrame := by
  unfold Obligations.OtherStateFrame
  intro i s t h
  obtain ⟨u, hu, ht, hfault⟩ := exec_next h
  generalize t.pc = pc at ht
  generalize t.fault = fault at ht hfault
  subst ht
  obtain rfl | ⟨-, rfl⟩ := hu
  · exact ⟨rfl, rfl, rfl, rfl, rfl, rfl, fun _ => rfl, fun _ => rfl, fun _ => rfl, fun _ => rfl,
      fun _ => rfl, fun _ => ⟨rfl, rfl⟩, fun _ => rfl, hfault⟩
  · rw [effect_fault] at hfault
    exact ⟨effect_params i s, effect_keys i s, effect_inputs i s, effect_loadReport i s,
      effect_delay_elapsed i s, effect_sound_elapsed i s, effect_index, effect_stack, effect_fb,
      effect_delay, effect_sound, effect_wait_wreg, effect_draws, hfault⟩

/-- Settles O57: raising a fault and writing pc both answer a next state. -/
theorem noInstructionStops : Obligations.NoInstructionStops := by
  unfold Obligations.NoInstructionStops
  intro i s
  cases hf : i.ownFault s with
  | some r => exact ⟨_, exec_of_ownFault hf⟩
  | none =>
    rw [exec_of_no_ownFault hf]
    obtain ⟨-, e⟩ | ⟨-, e⟩ := setPc_cases (i.target s) (i.effect s)
    · exact ⟨_, e⟩
    · exact ⟨_, e⟩

end Sys2Proof.Machine
end

section
/-! PROOFS. What every step keeps. A predicate that each part of an event keeps is kept by the step;
the invariant (O59) and "only a program's faults are recorded" (O51) are two such predicates. -/

namespace Sys2Proof.Machine

/-! ### From the parts of an event to the step -/

/-- Every part of every event keeps the predicate. -/
structure KeptByParts (P : State → Prop) : Prop where
  /-- What the host will do next and the draw counter do not matter. -/
  bookkeeping : ∀ s inputs draws, P s → P { s with inputs := inputs, draws := draws }
  raise : ∀ s r, r.raisedByExec = true → P s → P { s with fault := some r }
  exec : ∀ i s t, P s → exec i s = .next t → P t
  timers : ∀ s dt, P s → P (s.advanceTimers dt)
  scan : ∀ s, P s → P s.scanKeys
  load : ∀ s bytes loc, P s → P (s.loadMem bytes loc)
  key : ∀ s k b, P s → P (s.setKey k b)
  construct : ∀ p, p.check = none → P (State.construct p)

section

variable {P : State → Prop} {s t : State} (hP : KeptByParts P)
include hP

theorem KeptByParts.execOne (hs : P s) (h : execOne s = .next t) : P t := by
  unfold Machine.execOne at h
  split at h
  · cases h
    exact hP.raise _ _ rfl hs
  · split at h
    · cases h
      exact hP.raise _ _ rfl hs
    · exact hP.exec _ _ _ hs h

theorem KeptByParts.execMany {n : Nat} (hs : P s) (h : execMany n s = .next t) : P t := by
  induction n generalizing s with
  | zero =>
    cases h
    exact hs
  | succ n ih =>
    cases hone : Machine.execOne s with
    | next u =>
      have hu : P u := hP.execOne hs hone
      rw [execMany_succ_next hone] at h
      split at h
      · cases h
        exact hu
      · exact ih hu h
    | fault f => simp [Machine.execMany, hone] at h
    | refused r => simp [Machine.execMany, hone] at h

theorem KeptByParts.beforeExec (dt : Nat) (hs : P s) : P (s.beforeExec dt) := by
  simp only [State.beforeExec]
  split
  · exact hP.scan _ (hP.timers _ _ hs)
  · exact hP.timers _ _ hs

theorem KeptByParts.tick {dt : Nat} (hs : P s) (h : tick dt s = .next t) : P t := by
  simp only [Machine.tick] at h
  split at h
  · cases h
    exact hP.beforeExec dt hs
  · exact hP.execMany (hP.beforeExec dt hs) h

theorem KeptByParts.handle {e : Event} (hs : P s) (h : handle e s = .next t) : P t := by
  cases e with
  | reset p =>
    simp only [Machine.handle, Machine.construct] at h
    split at h
    · cases h
    · cases h
      exact hP.bookkeeping _ _ _ (hP.construct p ‹_›)
  | loadMem bytes loc =>
    cases h
    exact hP.load _ _ _ hs
  | press k =>
    cases h
    exact hP.key _ _ _ hs
  | release k =>
    cases h
    exact hP.key _ _ _ hs
  | tick dt =>
    simp only [Machine.handle, tickEvent] at h
    split at h
    · cases h
    · exact hP.tick hs h
  | exec =>
    simp only [Machine.handle, execEvent] at h
    split at h
    · cases h
    · split at h
      · cases h
      · exact hP.execOne hs h

theorem KeptByParts.step (hs : P s) (h : step s = .next t) : P t := by
  cases hin : s.inputs with
  | nil =>
    rw [step_nil hin] at h
    exact hP.handle (e := .tick (Config.freeDt s.draws))
      (hP.bookkeeping s s.inputs (s.draws + 1) hs) h
  | cons e l =>
    rw [step_cons hin] at h
    exact hP.handle (hP.bookkeeping s l s.draws hs) h

end

/-! ### The invariant -/

section

variable {i : Instr} {s t u : State}

/-- The invariant speaks of six fields. -/
theorem State.Inv.congr (h : s.Inv) (hp : t.params = s.params) (hm : t.mem = s.mem)
    (hf : t.fb = s.fb) (hst : t.stack = s.stack) (hd : t.delay.elapsed = s.delay.elapsed)
    (hso : t.sound.elapsed = s.sound.elapsed) : t.Inv where
  params := hp ▸ h.params
  memory := by
    unfold State.memoryFits
    rw [hp, hm]
    exact h.memory
  grid := by
    rw [hp, hf]
    exact h.grid
  stack := by
    unfold State.stackFits
    rw [hp, hst]
    exact h.stack
  timers := by rw [hd, hso, h.timers]

theorem State.Inv.storeBytes {a : Nat} {bs : List Byte} (h : s.Inv)
    (hb : a + bs.length ≤ s.params.memSize) : (s.storeBytes a bs).Inv :=
  { params := h.params, memory := State.storeBytes_memoryFits h.memory hb, grid := h.grid,
    stack := h.stack, timers := h.timers }

theorem State.Inv.setFb {fb : Frame} (h : s.Inv) (hf : gridFits s.params fb) : (s.setFb fb).Inv :=
  { params := h.params, memory := h.memory, grid := hf, stack := h.stack, timers := h.timers }

/-- A range of addresses that the bounds check passes lies inside memory. -/
theorem le_memSize_of_not_outside {a n : Nat} (h : ¬ s.outside a n = true) :
    a + n ≤ s.params.memSize :=
  Nat.not_lt.1 fun hlt => h (State.outside_iff.2 hlt)

/-- The writes of an instruction that raises nothing of itself keep the invariant. -/
theorem State.Inv.effect (h : s.Inv) (hf : i.ownFault s = none) : (i.effect s).Inv := by
  cases i with
  | cls => exact h.setFb (clearedFrame_fits _)
  | drw x y n =>
    exact (h.setFb (drawSprite_fits h.grid)).congr rfl rfl rfl rfl rfl rfl
  | ldBVx x =>
    have hin : ¬ s.outside s.index.toNat 3 = true := by simpa [Instr.ownFault] using hf
    exact h.storeBytes (le_memSize_of_not_outside hin)
  | stRegs x =>
    have hin : ¬ s.outside s.index.toNat (x.toNat + 1) = true := by simpa [Instr.ownFault] using hf
    exact h.storeBytes (by simpa using le_memSize_of_not_outside hin)
  | ret =>
    refine ⟨h.params, h.memory, h.grid, fun d hd => ?_, h.timers⟩
    exact (List.dropLast_sublist s.stack).length_le.trans (h.stack d hd)
  | call nnn =>
    refine ⟨h.params, h.memory, h.grid, fun d hd => ?_, h.timers⟩
    have hroom : s.stack.length ≠ d := by
      rintro rfl
      have hnotfull : s.params.stackDepth ≠ some s.stack.length := by
        simpa [Instr.ownFault, State.stackFull] using hf
      exact hnotfull hd
    have hle : s.stack.length ≤ d := h.stack d hd
    show (s.stack ++ [s.pc]).length ≤ d
    rw [List.length_append, List.length_singleton]
    omega
  | _ => exact h.congr rfl rfl rfl rfl rfl rfl

theorem State.Inv.exec (h : s.Inv) (he : exec i s = .next t) : t.Inv := by
  obtain ⟨u, hu, ht, -⟩ := exec_next he
  have hinv : u.Inv := by
    obtain rfl | ⟨hf, rfl⟩ := hu
    · exact h
    · exact h.effect hf
  rw [ht]
  exact hinv.congr rfl rfl rfl rfl rfl rfl

theorem timerTick_elapsed (th : Nat) (t : Timer) (dt : Nat) : (timerTick th t dt).elapsed =
    if th ≤ t.elapsed + dt then t.elapsed + dt - th else t.elapsed + dt := by
  obtain h | h := Nat.lt_or_ge (t.elapsed + dt) th
  · rw [timerTick_of_lt h, if_neg (Nat.not_le.2 h)]
  · rw [timerTick_of_le h, if_pos h]

/-- Both timers take the same time off the same threshold. -/
theorem State.Inv.advanceTimers (h : s.Inv) (dt : Nat) : (s.advanceTimers dt).Inv :=
  { params := h.params, memory := h.memory, grid := h.grid, stack := h.stack
    timers := by simp only [advanceTimers_delay, advanceTimers_sound, timerTick_elapsed, h.timers] }

theorem State.Inv.loadMem (h : s.Inv) (bytes : List Byte) (loc : Nat) :
    (s.loadMem bytes loc).Inv := by
  unfold State.loadMem
  split
  · exact h.congr rfl rfl rfl rfl rfl rfl
  · exact (h.storeBytes (le_memSize_of_not_outside ‹_›)).congr rfl rfl rfl rfl rfl rfl

theorem State.Inv.scanKeys (h : s.Inv) : s.scanKeys.Inv := by
  obtain e | ⟨k, -, e⟩ := s.scanKeys_cases
  · rwa [e]
  · rw [e]
    exact h.congr rfl rfl rfl rfl rfl rfl

theorem State.construct_inv {p : Params} (h : p.check = none) : (State.construct p).Inv where
  params := h
  memory := ⟨Memory.wf_nil, by simp [State.construct]⟩
  grid := clearedFrame_fits p
  stack := fun d _ => Nat.zero_le d
  timers := rfl

theorem inv_keptByParts : KeptByParts State.Inv where
  bookkeeping _ _ _ h := h.congr rfl rfl rfl rfl rfl rfl
  raise _ _ _ h := h.congr rfl rfl rfl rfl rfl rfl
  exec _ _ _ h he := h.exec he
  timers _ dt h := h.advanceTimers dt
  scan _ h := h.scanKeys
  load _ bytes loc h := h.loadMem bytes loc
  key _ _ _ h := h.congr rfl rfl rfl rfl rfl rfl
  construct _ h := State.construct_inv h

end

/-- Settles O59: each part of an event keeps the invariant. -/
theorem stepKeepsTheInvariant : Obligations.StepKeepsTheInvariant := by
  unfold Obligations.StepKeepsTheInvariant
  exact fun s t hs h => inv_keptByParts.step hs h

/-- Settles O58: the constructed state meets the invariant, and the default parameters are legal. -/
theorem resetMeetsTheInvariant : Obligations.ResetMeetsTheInvariant := by
  unfold Obligations.ResetMeetsTheInvariant
  exact ⟨State.construct_inv (by decide), fun p => State.construct_inv⟩

/-! ### The recorded fault -/

/-- FAULT is none or holds a fault that a program can cause. -/
def State.ProgramFault (s : State) : Prop := ∀ r, s.fault = some r → r.raisedByExec = true

theorem State.scanKeys_fault (s : State) : s.scanKeys.fault = s.fault := by
  obtain e | ⟨k, -, e⟩ := s.scanKeys_cases <;> rw [e]
  rfl

theorem State.loadMem_fault (s : State) (bytes : List Byte) (loc : Nat) :
    (s.loadMem bytes loc).fault = s.fault := by
  unfold State.loadMem
  split <;> rfl

theorem exec_programFault {i : Instr} {s t : State} (hs : s.ProgramFault) (h : exec i s = .next t) :
    t.ProgramFault := by
  intro r hr
  obtain ⟨u, hu, -, hkept | ⟨r', hr', hraised⟩⟩ := exec_next h
  · have hus : u.fault = s.fault := by
      obtain rfl | ⟨-, rfl⟩ := hu
      · rfl
      · exact effect_fault i s
    exact hs r (by rw [← hus, ← hkept, hr])
  · rw [hr] at hr'
    cases hr'
    exact hraised

theorem programFault_keptByParts : KeptByParts State.ProgramFault where
  bookkeeping _ _ _ h := h
  raise _ _ hr _ _ e := by
    cases e
    exact hr
  exec _ _ _ h he := exec_programFault h he
  timers _ _ h := h
  scan s h := by
    unfold State.ProgramFault
    rw [s.scanKeys_fault]
    exact h
  load s bytes loc h := by
    unfold State.ProgramFault
    rw [s.loadMem_fault]
    exact h
  key _ _ _ h := h
  construct _ _ _ e := by cases e

/-- Settles O51: a state with no fault recorded has no other, and each part of an event records none
but a program's. -/
theorem onlyProgramFaultsAreRecorded : Obligations.OnlyProgramFaultsAreRecorded := by
  unfold Obligations.OnlyProgramFaultsAreRecorded
  intro s t r hs h hr
  have hp : s.ProgramFault := fun r' hr' => by simp [hs] at hr'
  exact programFault_keptByParts.step hp h r hr

theorem tickEvent_refused {s : State} {r : FaultRecord} (h : s.fault = some r) (dt : Nat) :
    tickEvent dt s = .refused (.haltedByFault r) := by
  simp only [tickEvent, h]

theorem execEvent_refused {s : State} {r : FaultRecord} (h : s.fault = some r) :
    execEvent s = .refused (.haltedByFault r) := by
  simp only [execEvent, h]

/-- An event of a faulted machine that is no `Reset` keeps the fault, where it is not refused. -/
theorem handle_fault {e : Event} {s t : State} {r : FaultRecord} (hs : s.fault = some r)
    (he : ∀ p, e ≠ .reset p) (h : handle e s = .next t) : t.fault = some r := by
  cases e with
  | reset p => exact absurd rfl (he p)
  | loadMem bytes loc =>
    cases h
    rw [State.loadMem_fault, hs]
  | press k | release k =>
    cases h
    exact hs
  | tick dt =>
    simp [handle, tickEvent_refused hs] at h
  | exec =>
    simp [handle, execEvent_refused hs] at h

theorem State.nextEvent_fault (s : State) : s.nextEvent.2.fault = s.fault := by
  unfold State.nextEvent
  split <;> rfl

/-- Settles O49: taking the event keeps the fault, and so does handling it. -/
theorem faultStaysUntilReset : Obligations.FaultStaysUntilReset := by
  unfold Obligations.FaultStaysUntilReset
  intro s t r hs he h
  exact handle_fault (s.nextEvent_fault.trans hs) he h

/-- Settles O50: the checks of the two events, in their order. -/
theorem disabledEventsAreRefused : Obligations.DisabledEventsAreRefused := by
  unfold Obligations.DisabledEventsAreRefused
  refine ⟨fun s rest dt r hs hin => ?_, fun s rest hs hw hin => ?_⟩
  · obtain hin | hin | hin := hin
    · rw [step_cons hin]
      exact tickEvent_refused (by exact hs) dt
    · rw [step_cons hin]
      exact execEvent_refused (by exact hs)
    · rw [step_nil hin]
      exact tickEvent_refused (by exact hs) _
  · rw [step_cons hin]
    simp [handle, execEvent, hs, hw]

end Sys2Proof.Machine
end

section
/-! PROOFS. What each instruction does where it raises nothing and pc stays inside 12 bits: the
normal form of `exec` with the writes in the words of the spec (40_iiii_system.md to
45_ixyn_draw.md). -/

namespace Sys2Proof.Machine

/-! ### Pattern IIII and INNN -/

/-- A return pops the top of the stack and advances from it (R101). -/
theorem exec_ret_of_append {s : State} {below : List Addr} {a : Addr} (h : s.stack = below ++ [a]) :
    exec .ret s = advancePc 2 { s with stack := below, pc := a } := by
  simp only [exec, execRet, State.pop_append h]

/-- Settles O11: the popped address is the top of the stack, and the advance starts from it. -/
theorem returnGoesPastThePoppedAddress : Obligations.ReturnGoesPastThePoppedAddress := by
  unfold Obligations.ReturnGoesPastThePoppedAddress
  intro s below a hs ha
  rw [exec_ret_of_append hs]
  exact advancePc_of_le ha

theorem exec_call_of_room {s : State} (nnn : Addr) (h : s.params.stackDepth ≠ some s.stack.length) :
    exec (.call nnn) s = .next { s with stack := s.stack ++ [s.pc], pc := nnn } := by
  simp only [exec, execCall, State.push_of_not_full h, setPc_toNat]

/-- Settles O13: a push on a stack with room, and a write of a 12-bit address to pc. -/
theorem callPushesItsOwnAddress : Obligations.CallPushesItsOwnAddress := by
  unfold Obligations.CallPushesItsOwnAddress
  exact fun s nnn h => exec_call_of_room nnn h

/-- Settles O14: the return pops the address that the call pushed. -/
theorem returnUndoesCall : Obligations.ReturnUndoesCall := by
  unfold Obligations.ReturnUndoesCall
  intro s t u nnn hroom hpc hcall hstack
  rw [exec_call_of_room nnn hroom] at hcall
  cases hcall
  exact returnGoesPastThePoppedAddress u s.stack s.pc hstack hpc

/-- Settles O15: the model's zero extension is the one of the statement. -/
theorem loadIndexZeroExtends : Obligations.LoadIndexZeroExtends := by
  unfold Obligations.LoadIndexZeroExtends
  exact fun s nnn hpc => exec_advance_two rfl rfl rfl hpc

/-- Settles O16: the target fits 12 bits, so the 12-bit sum is the sum. -/
theorem indexedJumpAddsV0 : Obligations.IndexedJumpAddsV0 := by
  unfold Obligations.IndexedJumpAddsV0
  intro s nnn hle
  have htarget :
      BitVec.ofNat 12 (nnn.toNat + (s.reg 0#4).toNat) = nnn + (s.reg 0#4).setWidth 12 := by
    rw [BitVec.ofNat_add, BitVec.ofNat_toNat, BitVec.ofNat_toNat, BitVec.setWidth_eq]
  rw [← htarget]
  exact setPc_of_le hle

/-! ### The skips -/

/-- A skip that raises nothing of itself adds 4 to pc where its condition holds, and else 2. -/
theorem exec_skip {i : Instr} {s : State} {c : Prop} [Decidable c] (ha : i.advances = true)
    (hf : i.ownFault s = none) (hc : i.skipTaken s = true ↔ c) (he : i.effect s = s)
    (hpc : s.pc.toNat + (if c then 4 else 2) ≤ 0xFFF) :
    exec i s = .next { s with pc := s.pc + if c then 4#12 else 2#12 } := by
  simp only [← hc] at hpc ⊢
  rw [exec_advance ha hf hpc, he]

/-- Settles O17: the second skip takes the opposite condition. -/
theorem immediateSkips : Obligations.ImmediateSkips := by
  unfold Obligations.ImmediateSkips
  intro s x kk
  refine ⟨fun hpc => exec_skip rfl rfl beq_iff_eq rfl hpc, fun hpc => ?_⟩
  rw [← ite_not] at hpc ⊢
  exact exec_skip rfl rfl bne_iff_ne rfl hpc

/-- Settles O20: the second skip takes the opposite condition. -/
theorem registerSkips : Obligations.RegisterSkips := by
  unfold Obligations.RegisterSkips
  intro s x y
  refine ⟨fun hpc => exec_skip rfl rfl beq_iff_eq rfl hpc, fun hpc => ?_⟩
  rw [← ite_not] at hpc ⊢
  exact exec_skip rfl rfl bne_iff_ne rfl hpc

/-- A register value that is a key number selects that key. -/
theorem setWidth_reg_of_key {s : State} {x k : Nibble} (h : (s.reg x).toNat = k.toNat) :
    (s.reg x).setWidth 4 = k := by
  rw [← BitVec.ofNat_toNat, h, BitVec.ofNat_toNat, BitVec.setWidth_eq]

/-- A key skip raises nothing where the register holds a key number. -/
theorem ownFault_skp_of_key {s : State} {x k : Nibble} (h : (s.reg x).toNat = k.toNat) :
    (Instr.skp x).ownFault s = none ∧ (Instr.sknp x).ownFault s = none := by
  have hle : ¬ 15 < (s.reg x).toNat := by have := k.isLt; omega
  exact ⟨if_neg hle, if_neg hle⟩

/-- Settles O26: the whole register names the key. -/
theorem keySkips : Obligations.KeySkips := by
  unfold Obligations.KeySkips
  intro s x k hk
  obtain ⟨hskp, hsknp⟩ := ownFault_skp_of_key hk
  have hkey : s.key ((s.reg x).setWidth 4) = s.key k := by rw [setWidth_reg_of_key hk]
  refine ⟨fun hpc => exec_skip rfl hskp ?_ rfl hpc, fun hpc => ?_⟩
  · rw [Instr.skipTaken, hkey]
  · rw [← ite_not] at hpc ⊢
    refine exec_skip rfl hsknp ?_ rfl hpc
    rw [Instr.skipTaken, hkey]
    simp

/-! ### Pattern IXKK -/

theorem addResult_eq_mod (a b : Byte) :
    addResult a b = BitVec.ofNat 8 ((a.toNat + b.toNat) % 256) := by
  apply BitVec.eq_of_toNat_eq
  rw [addResult_toNat, BitVec.toNat_ofNat]
  omega

/-- Settles O18: the sum is narrowed once more than the model narrows it. -/
theorem immediateLoadAndAdd : Obligations.ImmediateLoadAndAdd := by
  unfold Obligations.ImmediateLoadAndAdd
  intro s x kk hpc
  rw [← addResult_eq_mod]
  exact ⟨exec_advance_two rfl rfl rfl hpc, exec_advance_two rfl rfl rfl hpc⟩

/-- Settles O19: the masked draw has no bit outside the mask. -/
theorem randomByteIsMasked : Obligations.RandomByteIsMasked := by
  unfold Obligations.RandomByteIsMasked
  intro s x kk hpc
  refine ⟨_, exec_advance_two rfl rfl rfl hpc, rfl, ?_⟩
  have hreg : (s.setReg x (Config.randomByte s.draws &&& kk)).reg x =
      Config.randomByte s.draws &&& kk := s.setReg_reg_same x _
  refine ⟨?_, ?_⟩
  · refine (congrArg (· &&& ~~~kk) hreg).trans ?_
    simp only [BitVec.and_assoc, BitVec.and_not_self]
    exact BitVec.and_zero
  · rintro rfl
    exact hreg.trans BitVec.and_zero

/-! ### Pattern IXYI -/

/-- Settles O21: one register write each, and the advance. -/
theorem copyAndLogic : Obligations.CopyAndLogic := by
  unfold Obligations.CopyAndLogic
  exact fun s x y hpc => ⟨exec_advance_two rfl rfl rfl hpc, exec_advance_two rfl rfl rfl hpc,
    exec_advance_two rfl rfl rfl hpc, exec_advance_two rfl rfl rfl hpc⟩

theorem flagByte_addCarry (a b : Byte) :
    flagByte (addCarry a b) = if 255 < a.toNat + b.toNat then 1#8 else 0#8 := by
  rw [addCarry_eq, flagByte_decide]

/-- Settles O22: the sum and the carry are those of the exact sum, written in this order. -/
theorem addWritesSumThenCarry : Obligations.AddWritesSumThenCarry := by
  unfold Obligations.AddWritesSumThenCarry
  intro s x y hpc
  rw [← addResult_eq_mod, ← flagByte_addCarry]
  exact exec_advance_two rfl rfl rfl hpc

theorem subResult_eq_ite (a b : Byte) : subResult a b = if b ≤ a then a - b else 0#8 := by
  apply BitVec.eq_of_toNat_eq
  rw [subResult_toNat]
  split
  next hle => rw [BitVec.toNat_sub_of_le hle]
  next hlt =>
    rw [BitVec.le_def] at hlt
    exact Nat.sub_eq_zero_of_le (Nat.le_of_not_le hlt)

theorem flagByte_noBorrow (a b : Byte) : flagByte (noBorrow a b) = if b ≤ a then 1#8 else 0#8 := by
  rw [noBorrow_eq, flagByte_decide]
  simp only [BitVec.le_def]

/-- Settles O23: the clamped difference and the no-borrow flag, both by comparing the operands. -/
theorem subtractClampsThenFlags : Obligations.SubtractClampsThenFlags := by
  unfold Obligations.SubtractClampsThenFlags
  intro s x y hpc
  simp only [← subResult_eq_ite, ← flagByte_noBorrow]
  exact ⟨exec_advance_two rfl rfl rfl hpc, exec_advance_two rfl rfl rfl hpc⟩

theorem shrResult_eq_shift (b : Byte) : shrResult b = b >>> 1 := by
  apply BitVec.eq_of_toNat_eq
  rw [shrResult_toNat, BitVec.toNat_ushiftRight, Nat.shiftRight_one]

theorem shlResult_eq_shift (b : Byte) : shlResult b = b <<< 1 := by
  apply BitVec.eq_of_toNat_eq
  rw [shlResult_toNat, BitVec.toNat_shiftLeft, Nat.shiftLeft_eq, Nat.pow_one, Nat.mul_comm]

theorem shrOut_eq_bit (b : Byte) : shrOut b = b.getLsbD 0 := by
  rw [← BitVec.testBit_toNat, Nat.testBit_zero]
  rfl

theorem shlOut_eq_bit (b : Byte) : shlOut b = b.getLsbD 7 := by
  have := b.isLt
  rw [← BitVec.testBit_toNat, Nat.testBit_eq_decide_div_mod_eq]
  exact decide_eq_decide.2 (by omega)

/-- Settles O24: the shift's result and the bit shifted out. -/
theorem shiftsFlagThenResult : Obligations.ShiftsFlagThenResult := by
  unfold Obligations.ShiftsFlagThenResult
  intro s x y hpc
  rw [← shrResult_eq_shift, ← shlResult_eq_shift, ← shrOut_eq_bit, ← shlOut_eq_bit]
  exact ⟨exec_advance_two rfl rfl rfl hpc, exec_advance_two rfl rfl rfl hpc⟩

section

variable {s : State} {x : Nibble} {res : Byte} {flag : Bool} (hx : x ≠ 15#4)
include hx

/-- For x other than 15 neither order of the two writes loses one. -/
theorem State.resultThenFlag_reg : (s.resultThenFlag x res flag).reg x = res ∧
    (s.resultThenFlag x res flag).reg 15#4 = flagByte flag := by
  simp [State.resultThenFlag, State.setReg_reg, hx]

theorem State.flagThenResult_reg : (s.flagThenResult x res flag).reg x = res ∧
    (s.flagThenResult x res flag).reg 15#4 = flagByte flag := by
  simp [State.flagThenResult, State.setReg_reg, hx.symm]

theorem State.setReg_reg_and_flag : (s.setReg x res).reg x = res ∧
    (s.setReg x res).reg 15#4 = s.reg 15#4 := by
  simp [State.setReg_reg, hx.symm]

end

theorem flagByte_toNat (q : Prop) [Decidable q] :
    (flagByte (decide q)).toNat = if q then 1 else 0 := by
  rw [flagByte_decide]
  split <;> rfl

/-- The clamped difference as a signed number. -/
theorem subResult_toNat_int (a b : Byte) :
    ((subResult a b).toNat : Int) = max ((a.toNat : Int) - (b.toNat : Int)) 0 := by
  rw [subResult_toNat]
  omega

/-- What is read from `V[x]` and VF after an instruction that does not skip is what its writes left.
-/
theorem exec_reads {i : Instr} {s : State} {x : Nibble} {a b : Byte} (ha : i.advances = true)
    (hs : i.skips = false) (hf : i.ownFault s = none) (hpc : s.pc.toNat + 2 ≤ 0xFFF)
    (h : (i.effect s).reg x = a ∧ (i.effect s).reg 15#4 = b) :
    ∃ t, exec i s = .next t ∧ t.reg x = a ∧ t.reg 15#4 = b :=
  ⟨_, exec_advance_two ha hs hf hpc, h⟩

/-- Settles O25: each instruction's result and flag are read back from its writes. -/
theorem aluLaws : Obligations.AluLaws := by
  unfold Obligations.AluLaws
  intro s x y hx hpc
  refine ⟨?_, ?_, ?_, ?_, ?_, ?_, ?_, ?_⟩
  · exact exec_reads rfl rfl rfl hpc (State.setReg_reg_and_flag hx)
  · exact exec_reads rfl rfl rfl hpc (State.setReg_reg_and_flag hx)
  · exact exec_reads rfl rfl rfl hpc (State.setReg_reg_and_flag hx)
  · obtain ⟨t, ht, hres, hflag⟩ :=
      exec_reads (i := .addReg x y) rfl rfl rfl hpc (State.resultThenFlag_reg hx)
    exact ⟨t, ht, by rw [hres, addResult_toNat], by rw [hflag, addCarry_eq, flagByte_toNat]⟩
  · obtain ⟨t, ht, hres, hflag⟩ :=
      exec_reads (i := .sub x y) rfl rfl rfl hpc (State.resultThenFlag_reg hx)
    exact ⟨t, ht, by rw [hres, subResult_toNat_int], by rw [hflag, noBorrow_eq, flagByte_toNat]⟩
  · obtain ⟨t, ht, hres, hflag⟩ :=
      exec_reads (i := .subn x y) rfl rfl rfl hpc (State.resultThenFlag_reg hx)
    exact ⟨t, ht, by rw [hres, subResult_toNat_int], by rw [hflag, noBorrow_eq, flagByte_toNat]⟩
  · obtain ⟨t, ht, hres, hflag⟩ :=
      exec_reads (i := .shr x y) rfl rfl rfl hpc (State.flagThenResult_reg hx)
    exact ⟨t, ht, by rw [hres, shrResult_toNat], by rw [hflag, shrOut_toNat]⟩
  · obtain ⟨t, ht, hres, hflag⟩ :=
      exec_reads (i := .shl x y) rfl rfl rfl hpc (State.flagThenResult_reg hx)
    exact ⟨t, ht, by rw [hres, shlResult_toNat], by rw [hflag, shlOut_toNat]⟩

/-! ### Pattern IXII -/

/-- Settles O27: a timer's value is written beside its accumulator. -/
theorem timerInstructions : Obligations.TimerInstructions := by
  unfold Obligations.TimerInstructions
  exact fun s x hpc => ⟨exec_advance_two rfl rfl rfl hpc, exec_advance_two rfl rfl rfl hpc,
    exec_advance_two rfl rfl rfl hpc⟩

/-- Settles O28: entering the wait is the whole write, and pc advances at once. -/
theorem keyWaitIsEntered : Obligations.KeyWaitIsEntered := by
  unfold Obligations.KeyWaitIsEntered
  exact fun s x hpc => exec_advance_two rfl rfl rfl hpc

theorem State.indexPlus_eq (s : State) (x : Nibble) :
    s.indexPlus x = s.index + (s.reg x).setWidth 16 := by
  rw [State.indexPlus, BitVec.ofNat_add, BitVec.ofNat_toNat, BitVec.ofNat_toNat, BitVec.setWidth_eq]

theorem State.fontAddress_eq (s : State) (x : Nibble) : s.fontAddress x =
    BitVec.ofNat 16 ((s.params.fontBase + (s.reg x).toNat * s.params.fontStride) % 65536) := by
  apply BitVec.eq_of_toNat_eq
  simp [State.fontAddress]

/-- Settles O29: sums of 16 bits are sums modulo 65536. -/
theorem indexArithmetic : Obligations.IndexArithmetic := by
  unfold Obligations.IndexArithmetic
  intro s x hpc
  rw [← s.indexPlus_eq, ← s.fontAddress_eq]
  exact ⟨exec_advance_two rfl rfl rfl hpc, exec_advance_two rfl rfl rfl hpc⟩

/-- A range inside memory passes the bounds check. -/
theorem not_outside_of_le {s : State} {a n : Nat} (h : a + n ≤ s.params.memSize) :
    ¬ s.outside a n = true := by
  rw [State.outside_iff]
  exact Nat.not_lt.2 h

/-- Settles O30: the three digits read back from the store, and no other byte is in its range. -/
theorem bcdStoresThreeDigits : Obligations.BcdStoresThreeDigits := by
  unfold Obligations.BcdStoresThreeDigits
  intro s x hm hin hpc
  have hdigit (j : Nat) (hj : j < 3) :
      (s.storeBytes s.index.toNat (bcdDigits (s.reg x))).byte (s.index.toNat + j) =
        (bcdDigits (s.reg x))[j] := State.storeBytes_byte_inside hm hj
  have hlt := (s.reg x).isLt
  refine ⟨_, exec_advance_two rfl rfl (if_neg (not_outside_of_le hin)) hpc, rfl,
    ?_, ?_, ?_, fun a ha => ?_⟩
  · refine (congrArg BitVec.toNat (hdigit 0 (by decide))).trans ?_
    exact Nat.mod_eq_of_lt (by omega)
  · refine (congrArg BitVec.toNat (hdigit 1 (by decide))).trans ?_
    exact Nat.mod_eq_of_lt (by omega)
  · refine (congrArg BitVec.toNat (hdigit 2 (by decide))).trans ?_
    exact Nat.mod_eq_of_lt (by omega)
  · exact State.storeBytes_byte_outside (s := s) (bs := bcdDigits (s.reg x)) ha

theorem State.firstRegs_getElem (s : State) {x r : Nibble} (h : r.toNat < (s.firstRegs x).length) :
    (s.firstRegs x)[r.toNat] = s.reg r := by
  simp [State.firstRegs, State.reg]

/-- Settles O31: the stored registers read back, and no other byte is in the range of the store. -/
theorem registersAreStored : Obligations.RegistersAreStored := by
  unfold Obligations.RegistersAreStored
  intro s x hm hin hpc
  refine ⟨_, exec_advance_two rfl rfl (if_neg (not_outside_of_le hin)) hpc, rfl, fun r hr => ?_,
    fun a ha => ?_⟩
  · have hr' : r.toNat < (s.firstRegs x).length := by
      rw [State.firstRegs_length]
      omega
    exact (State.storeBytes_byte_inside hm hr').trans (s.firstRegs_getElem hr')
  · exact State.storeBytes_byte_outside (s := s) (bs := s.firstRegs x)
      (by rwa [State.firstRegs_length])

theorem State.bytesFrom_getElem? (s : State) (a n j : Nat) :
    (s.bytesFrom a n)[j]? = if j < n then some (s.byte (a + j)) else none := by
  rw [State.bytesFrom, List.getElem?_map]
  split
  next h => rw [List.getElem?_range h, Option.map_some]
  next h => rw [List.getElem?_eq_none (by simpa using h), Option.map_none]

/-- Settles O32: a register up to x gets its byte, the others keep their value. -/
theorem registersAreLoaded : Obligations.RegistersAreLoaded := by
  unfold Obligations.RegistersAreLoaded
  intro s x hin hpc
  refine ⟨_, exec_advance_two rfl rfl (if_neg (not_outside_of_le hin)) hpc, rfl, fun r => ?_⟩
  refine (s.loadRegs_reg _ r).trans ?_
  rw [s.bytesFrom_getElem?]
  simp only [Nat.lt_succ_iff]
  split <;> rfl

/-! ### Pattern IXYN -/

/-- Settles O33: with no byte to read, or the bytes inside memory, the draw raises nothing of
itself. -/
theorem drawBlitsAndFlags : Obligations.DrawBlitsAndFlags := by
  unfold Obligations.DrawBlitsAndFlags
  intro s x y n hin hpc
  have hf : (Instr.drw x y n).ownFault s = none := by
    refine if_neg fun h => ?_
    obtain hn | hle := hin
    · exact h.1 hn
    · exact not_outside_of_le hle h.2
  exact exec_advance_two rfl rfl hf hpc

/-! ### An instruction's own fault -/

/-- Settles O53: each fault is raised before any write. -/
theorem ownFaultsChangeNothingElse : Obligations.OwnFaultsChangeNothingElse := by
  unfold Obligations.OwnFaultsChangeNothingElse
  intro s
  refine ⟨fun h => exec_of_ownFault (if_pos h), fun nnn h => exec_of_ownFault (if_pos ?_),
    fun x h => ⟨exec_of_ownFault (if_pos h), exec_of_ownFault (if_pos h)⟩,
    fun x h => exec_of_ownFault (if_pos (State.outside_iff.2 h)),
    fun x h => ⟨exec_of_ownFault (if_pos (State.outside_iff.2 h)),
      exec_of_ownFault (if_pos (State.outside_iff.2 h))⟩,
    fun x y n hn h => exec_of_ownFault (if_pos ⟨hn, State.outside_iff.2 h⟩)⟩
  rw [State.stackFull, h]
  exact beq_self_eq_true _

end Sys2Proof.Machine
end

section
/-! PROOFS. The top of the 12-bit range (30_encoding.md R82, 60_exceptions.md R176): the own fault,
the writes and the advance of an advancing instruction do not depend on pc. -/

namespace Sys2Proof.Machine

variable {i : Instr} {s : State}

/-! ### What does not depend on pc -/

theorem ownFault_at_pc (ha : i.advances = true) (a : Addr) :
    i.ownFault { s with pc := a } = i.ownFault s := by
  cases i with
  | ret | jp | call | jpv0 => cases ha
  | _ => rfl

theorem effect_at_pc (ha : i.advances = true) (a : Addr) :
    i.effect { s with pc := a } = { i.effect s with pc := a } := by
  cases i with
  | ret | jp | call | jpv0 => cases ha
  | _ => rfl

theorem skipTaken_at_pc (i : Instr) (s : State) (a : Addr) :
    i.skipTaken { s with pc := a } = i.skipTaken s := by
  cases i <;> rfl

/-- At pc 0 an advancing instruction that raises nothing of itself advances. -/
theorem exec_at_zero (ha : i.advances = true) (hf : i.ownFault s = none) :
    exec i { s with pc := 0#12 } =
      .next { i.effect s with pc := if i.skipTaken s then 4#12 else 2#12 } := by
  rw [exec_advance ha (by rw [ownFault_at_pc ha, hf]), effect_at_pc ha, skipTaken_at_pc,
    BitVec.zero_add]
  show (0#12).toNat + _ ≤ 0xFFF
  split <;> decide

theorem skips_of_skipTaken (h : i.skipTaken s = true) : i.skips = true := by
  by_contra hs
  rw [skipTaken_of_not_skips (Bool.eq_false_of_not_eq_true hs)] at h
  cases h

/-- A taken skip that leaves the 12-bit range changes nothing but FAULT. -/
theorem exec_skip_off (ha : i.advances = true) (hf : i.ownFault s = none) (he : i.effect s = s)
    (hc : i.skipTaken s = true) (hpc : 0xFFF < s.pc.toNat + 4) :
    exec i s = .next { s with
      fault := some (.memoryBoundsViolation .pcRange (s.pc.toNat + 4) 2) } := by
  rw [exec_advance_off ha hf (if_pos hc) hpc, he]

/-- An advancing instruction at any pc, by its effect at pc 0. -/
theorem exec_by_effect_at_zero (s : State) (i : Instr) (ha : i.advances = true) :
    ∃ u, exec i { s with pc := 0#12 } = .next u ∧
      ((∃ r, u = { s with pc := 0#12, fault := some r } ∧
          exec i s = .next { s with fault := some r }) ∨
        ((u.pc = 2#12 ∨ (i.skips = true ∧ u.pc = 4#12)) ∧ u.fault = s.fault ∧
          (0xFFF < s.pc.toNat + u.pc.toNat →
            exec i s = .next { u with
              pc := s.pc
              fault := some (.memoryBoundsViolation .pcRange (s.pc.toNat + u.pc.toNat) 2) }))) := by
  cases hf : i.ownFault s with
  | some r =>
    exact ⟨_, exec_of_ownFault (by rw [ownFault_at_pc ha, hf]), .inl ⟨r, rfl, exec_of_ownFault hf⟩⟩
  | none =>
    refine ⟨_, exec_at_zero ha hf, .inr ⟨?_, effect_fault i s, fun hpc => ?_⟩⟩
    · cases hc : i.skipTaken s with
      | true => exact .inr ⟨skips_of_skipTaken hc, rfl⟩
      | false => exact .inl rfl
    · rw [exec_advance_off ha hf (by split <;> rfl) hpc, ← effect_pc ha]

/-- Settles O52: the advancing instructions by their effect at pc 0, the six taken skips, the
indexed jump and the return. -/
theorem pcNeverLeavesTwelveBits : Obligations.PcNeverLeavesTwelveBits := by
  unfold Obligations.PcNeverLeavesTwelveBits
  refine ⟨exec_by_effect_at_zero, fun s i x y k kk hpc hi => ?_, fun s nnn h => setPc_of_lt h,
    fun s below a hs ha => ?_⟩
  · obtain ⟨rfl, hc⟩ | ⟨rfl, hc⟩ | ⟨rfl, hc⟩ | ⟨rfl, hc⟩ | ⟨rfl, hk, hc⟩ | ⟨rfl, hk, hc⟩ := hi
    · exact exec_skip_off rfl rfl rfl (beq_iff_eq.2 hc) hpc
    · exact exec_skip_off rfl rfl rfl (bne_iff_ne.2 hc) hpc
    · exact exec_skip_off rfl rfl rfl (beq_iff_eq.2 hc) hpc
    · exact exec_skip_off rfl rfl rfl (bne_iff_ne.2 hc) hpc
    · refine exec_skip_off rfl (ownFault_skp_of_key hk).1 rfl ?_ hpc
      rw [Instr.skipTaken, setWidth_reg_of_key hk, hc]
    · refine exec_skip_off rfl (ownFault_skp_of_key hk).2 rfl ?_ hpc
      rw [Instr.skipTaken, setWidth_reg_of_key hk, hc]
      rfl
  · rw [exec_ret_of_append hs]
    exact advancePc_of_lt ha

end Sys2Proof.Machine
end

section
/-! PROOFS. The events of the host (00_scope.md R12, 60_exceptions.md): the direct `Exec`, the tick
with its timers and its key wait, the key events, the host load and the observers. -/

namespace Sys2Proof.Machine

/-! ### Fetch, decode, dispatch (30_encoding.md R80) -/

theorem execOne_of_decode {s : State} {i : Instr} (hpc : s.pc.toNat + 2 ≤ s.params.memSize)
    (hi : decodeWord (wordOfBytes (s.byte s.pc.toNat) (s.byte (s.pc.toNat + 1))) = some i) :
    execOne s = exec i s := by
  simp only [execOne, State.fetch_of_le hpc, hi]

/-- Settles O4: each word by evaluation. -/
theorem sampleWordsDecode : Obligations.SampleWordsDecode := by
  unfold Obligations.SampleWordsDecode
  exact ⟨rfl, rfl, rfl, rfl, rfl, rfl, rfl, rfl⟩

/-- Settles O9: a word that decodes to nothing raises. -/
theorem unhandledWordFaults : Obligations.UnhandledWordFaults := by
  unfold Obligations.UnhandledWordFaults
  intro s w hw hnone
  simp only [execOne, hw, hnone]
  rfl

/-- Settles O7: an enabled `Exec` is fetch, decode and dispatch on the state with the event taken.
-/
theorem execRunsTheDecodedInstruction : Obligations.ExecRunsTheDecodedInstruction := by
  unfold Obligations.ExecRunsTheDecodedInstruction
  intro s rest i hin hfault hwait hpc hi
  calc step s = execEvent { s with inputs := rest } := step_cons hin
    _ = execOne { s with inputs := rest } := execEvent_enabled hfault hwait
    _ = exec i { s with inputs := rest } := execOne_of_decode hpc hi

/-! ### The tick (60_exceptions.md R180 to R189) -/

section

variable {s t : State} {dt : Nat}

/-- A tick that is taken keeps the machine, so what enables the machine's tick enables the step. -/
theorem step_of_tickTaken (ht : s.tickTaken dt t) (hfault : s.fault = none) :
    step s = tick dt t := by
  have htf : t.fault = none := by
    rw [State.tickTaken_eq ht]
    exact hfault
  rw [step_tickTaken ht, tickEvent_enabled htf]

/-- The timers of a taken tick are those of the machine before it. -/
theorem advanceTimers_of_tickTaken (ht : s.tickTaken dt t) : t.advanceTimers dt = { t with
    delay := timerTick s.params.threshold s.delay dt
    sound := timerTick s.params.threshold s.sound dt } := by
  rw [State.tickTaken_eq ht]
  rfl

end

/-- Settles O39: the two branches of the algorithm; the bounds follow from them. -/
theorem timerTickAlgorithm : Obligations.TimerTickAlgorithm := by
  unfold Obligations.TimerTickAlgorithm
  intro threshold dt t
  refine ⟨timerTick_of_lt, fun hle hpos => ?_, fun hle hzero => ?_, ?_⟩
  · rw [timerTick_of_le hle, if_pos (by simpa [BitVec.lt_def] using hpos)]
  · rw [timerTick_of_le hle, hzero]
    rfl
  · obtain h | h := Nat.lt_or_ge (t.elapsed + dt) threshold
    · rw [timerTick_of_lt h]
      exact ⟨le_refl _, Nat.le_succ _⟩
    · rw [timerTick_of_le h]
      dsimp only
      split
      next hpos =>
        have : (t.value - 1#8).toNat = t.value.toNat - 1 := BitVec.toNat_sub_of_le (by
          rw [BitVec.le_def]; exact hpos)
        omega
      next => exact ⟨le_refl _, Nat.le_succ _⟩

/-- Settles O41: a waiting tick with no key down is the advance of the timers. -/
theorem waitingTickOnlyMovesTimers : Obligations.WaitingTickOnlyMovesTimers := by
  unfold Obligations.WaitingTickOnlyMovesTimers
  intro s t dt ht hfault hwait hkeys
  have he := State.tickTaken_eq ht
  rw [step_of_tickTaken ht hfault, tick_waiting (by rw [he, hwait]) (by rw [he]; exact hkeys),
    advanceTimers_of_tickTaken ht]

/-- Settles O42: the scan ends the wait, and the instructions run from the state it leaves. -/
theorem keyEndsTheWaitInTheSameTick : Obligations.KeyEndsTheWaitInTheSameTick := by
  unfold Obligations.KeyEndsTheWaitInTheSameTick
  intro s t dt k ht hfault hwait hk hlowest
  have he := State.tickTaken_eq ht
  have hstep : step s = execMany s.params.ipt { t with
      delay := timerTick s.params.threshold s.delay dt
      sound := timerTick s.params.threshold s.sound dt
      v := s.v.set s.wreg.toNat (k.setWidth 8)
      wait := false } := by
    rw [step_of_tickTaken ht hfault, tick_waking (by rw [he, hwait]) (by rw [he]; exact hk)
      (by rw [he]; exact hlowest), advanceTimers_of_tickTaken ht, he]
    rfl
  refine ⟨_, rfl, hstep, fun hipt => ?_⟩
  rw [hstep, hipt, execMany_one]

/-- Settles O43: the tick is the advance of the timers and the loop; the loop's laws are its cases.
-/
theorem tickStopsAtFaultOrWait : Obligations.TickStopsAtFaultOrWait := by
  unfold Obligations.TickStopsAtFaultOrWait
  refine ⟨fun s t dt ht hfault hwait => ?_, fun s => rfl, fun n s t hone hstop => ?_,
    fun n s t hone hfault hwait => ?_⟩
  · have he := State.tickTaken_eq ht
    have hparams : t.params = s.params := by rw [he]
    rw [step_of_tickTaken ht hfault, tick_running (by rw [he, hwait]),
      advanceTimers_of_tickTaken ht, hparams]
  · rw [execMany_succ_next hone, if_pos]
    simpa [Option.isSome_iff_ne_none] using hstop
  · rw [execMany_succ_next hone, hfault, hwait]
    rfl

/-- Settles O8: with `IPT` 1 the loop is one instruction, fetched from the state with advanced
timers. -/
theorem tickRunsTheDecodedInstruction : Obligations.TickRunsTheDecodedInstruction := by
  unfold Obligations.TickRunsTheDecodedInstruction
  intro s t rest dt i htaken hfault hwait hipt hpc hi
  have ht : s.tickTaken dt t := htaken.imp_left fun h => ⟨rest, h⟩
  have he := State.tickTaken_eq ht
  rw [tickStopsAtFaultOrWait.1 s t dt ht hfault hwait, hipt, execMany_one]
  rw [he]
  exact execOne_of_decode hpc hi

/-! ### Key events (60_exceptions.md R186) -/

/-- Settles O44: the handling of a key event is one flag write. -/
theorem keyEventsSetOneFlag : Obligations.KeyEventsSetOneFlag := by
  unfold Obligations.KeyEventsSetOneFlag
  exact fun s rest k => ⟨fun hin => step_cons hin, fun hin => step_cons hin, rfl⟩

/-! ### Host loads (20_memory.md R64) -/

theorem loadMem_of_le {s : State} {bytes : List Byte} {loc : Nat}
    (h : loc + bytes.length ≤ s.params.memSize) :
    s.loadMem bytes loc = { s.storeBytes loc bytes with loadReport := none } :=
  if_neg (not_outside_of_le h)

theorem loadMem_of_lt {s : State} {bytes : List Byte} {loc : Nat}
    (h : s.params.memSize < loc + bytes.length) :
    s.loadMem bytes loc =
      { s with loadReport := some (.memoryBoundsViolation .hostLoad loc bytes.length) } :=
  if_pos (State.outside_iff.2 h)

/-- Settles O45: inside memory the load is a store, outside it the report. -/
theorem hostLoadStoresOrReports : Obligations.HostLoadStoresOrReports := by
  unfold Obligations.HostLoadStoresOrReports
  intro s rest bytes loc hin
  have hstep : step s = .next (State.loadMem { s with inputs := rest } bytes loc) := step_cons hin
  refine ⟨fun hm hle => ?_, fun hlt => ?_⟩
  · rw [hstep, loadMem_of_le (s := { s with inputs := rest }) hle]
    refine ⟨_, rfl, rfl, fun j hj => State.storeBytes_byte_inside (s := s) hm hj, fun a ha => ?_⟩
    exact State.storeBytes_byte_outside (s := s) ha
  · rw [hstep, loadMem_of_lt (s := { s with inputs := rest }) hlt]

/-! ### The observers (45_ixyn_draw.md R165, 60_exceptions.md R196) -/

/-- Settles O60: each observer by the case of its range check. -/
theorem observersAnswerFromTheState : Obligations.ObserversAnswerFromTheState := by
  unfold Obligations.ObserversAnswerFromTheState
  intro s
  exact ⟨fun x y hout => if_neg (by omega), fun x y hx hy => if_pos ⟨hx, hy⟩,
    rfl, rfl, rfl, rfl, rfl, rfl, rfl,
    fun hle => if_neg (not_outside_of_le hle), fun hlt => if_pos (State.outside_iff.2 hlt)⟩

end Sys2Proof.Machine
end

section
/-! PROOFS. Construction and reset (00_scope.md R7, 10_state.md R38, 70_reset_and_hazards.md R210,
R212): the font stride is the longest digit, so each byte of the font region belongs to one digit.
-/

namespace Sys2Proof

open Machine

/-! ### The stride (R212) -/

/-- The running maximum is at least its start and every length. -/
theorem le_foldl_max_length {α : Type} (l : List (List α)) (m : Nat) :
    m ≤ l.foldl (fun m g => max m g.length) m ∧
      ∀ g ∈ l, g.length ≤ l.foldl (fun m g => max m g.length) m := by
  induction l generalizing m with
  | nil => simp
  | cons g l ih =>
    obtain ⟨hstart, hmem⟩ := ih (max m g.length)
    simp only [List.foldl_cons, List.forall_mem_cons]
    exact ⟨(le_max_left _ _).trans hstart, (le_max_right _ _).trans hstart, hmem⟩

/-- The running maximum is its start or one of the lengths. -/
theorem foldl_max_length_eq {α : Type} (l : List (List α)) (m : Nat) :
    l.foldl (fun m g => max m g.length) m = m ∨
      ∃ g ∈ l, l.foldl (fun m g => max m g.length) m = g.length := by
  induction l generalizing m with
  | nil => exact .inl rfl
  | cons g l ih =>
    obtain h | ⟨g', hg', h⟩ := ih (max m g.length)
    · obtain hm | hg := max_choice m g.length
      · exact .inl (h.trans hm)
      · exact .inr ⟨g, by simp, h.trans hg⟩
    · exact .inr ⟨g', by simp [hg'], h⟩

variable (p : Params)

/-- No digit is longer than the stride. -/
theorem Params.length_le_fontStride (d : Fin 16) : p.fontData[d.val].length ≤ p.fontStride :=
  (le_foldl_max_length p.fontData.toList 0).2 _ (by simp)

/-- Some digit is as long as the stride. -/
theorem Params.exists_length_eq_fontStride :
    ∃ e : Fin 16, p.fontData[e.val].length = p.fontStride := by
  obtain h | ⟨g, hg, h⟩ := foldl_max_length_eq p.fontData.toList 0
  · refine ⟨0, ?_⟩
    have hle := p.length_le_fontStride 0
    have hzero : p.fontStride = 0 := h
    omega
  · obtain ⟨e, he, rfl⟩ := List.getElem_of_mem hg
    exact ⟨⟨e, by simpa using he⟩, h.symm⟩

/-! ### The reset contents of memory (R212) -/

/-- The font region: digit `d` at `FONT_BASE + d*FONT_STRIDE`, padded with 0 to the stride. -/
theorem Params.resetByte_font (d : Fin 16) {j : Nat} (hj : j < p.fontStride) :
    p.resetByte (p.fontBase + d.val * p.fontStride + j) = (p.fontData[d.val][j]?).getD 0#8 := by
  have hoff : p.fontBase + d.val * p.fontStride + j - p.fontBase = j + p.fontStride * d.val := by
    rw [Nat.mul_comm]
    omega
  have hdiv : (j + p.fontStride * d.val) / p.fontStride = d.val := by
    rw [Nat.add_mul_div_left _ _ (by omega), Nat.div_eq_of_lt hj, Nat.zero_add]
  have hmod : (j + p.fontStride * d.val) % p.fontStride = j := by
    rw [Nat.add_mul_mod_self_left, Nat.mod_eq_of_lt hj]
  have hin : ¬ p.fontBase + d.val * p.fontStride + j < p.fontBase := by omega
  simp only [Params.resetByte, if_neg hin, hoff, hdiv, hmod]
  simp

/-- There is no digit beyond the sixteenth, and no byte of a digit beyond the stride. -/
theorem Params.digit_getElem?_eq_none {d j : Nat} (h : 16 ≤ d ∨ p.fontStride ≤ j) :
    (p.fontData.toList[d]?.getD [])[j]? = none := by
  cases hd : p.fontData.toList[d]? with
  | none => rfl
  | some g =>
    obtain ⟨hlt, rfl⟩ := List.getElem?_eq_some_iff.1 hd
    have hlt : d < 16 := by simpa using hlt
    have hle : p.fontData[d].length ≤ p.fontStride := p.length_le_fontStride ⟨d, hlt⟩
    exact List.getElem?_eq_none (by simp; omega)

/-- Outside the font region memory is 0; with stride 0 the font is empty. -/
theorem Params.resetByte_outside {a : Nat}
    (h : a < p.fontBase ∨ p.fontBase + 16 * p.fontStride ≤ a) : p.resetByte a = 0#8 := by
  unfold Params.resetByte
  split
  · rfl
  · have hbeyond : 16 ≤ (a - p.fontBase) / p.fontStride ∨
        p.fontStride ≤ (a - p.fontBase) % p.fontStride := by
      obtain hzero | hpos := Nat.eq_zero_or_pos p.fontStride
      · exact .inr (hzero ▸ Nat.zero_le _)
      · exact .inl ((Nat.le_div_iff_mul_le hpos).2 (by omega))
    dsimp only
    rw [p.digit_getElem?_eq_none hbeyond]
    rfl

/-! ### Which parameters a construction accepts (R6, R7) -/

/-- A check that reports its failure passes where its condition fails and the later checks pass. -/
theorem ite_some_eq_none_iff {α : Type} {c : Prop} [Decidable c] {r : α} {later : Option α} :
    (if c then some r else later) = none ↔ ¬ c ∧ later = none := by
  by_cases h : c <;> simp [h]

/-- Every check of a construction passes exactly on the ranges of R6 with a font inside memory. -/
theorem Params.check_eq_none_iff : p.check = none ↔
    (0 < p.fbWidth ∧ 0 < p.fbHeight ∧ 2 ≤ p.memSize ∧ p.memSize ≤ 65536 ∧ 1 ≤ p.ipt ∧
      0 < p.fps ∧ 0 < p.threshold ∧ p.stackDepth ≠ some 0 ∧
      ∀ d : Fin 16,
        p.fontBase + d.val * p.fontStride + p.fontData[d.val].length ≤ p.memSize) := by
  have hdigit (d : Fin 16) : p.fontData.toList[d.val]?.getD [] = p.fontData[d.val] := by simp
  simp only [Params.check, ite_some_eq_none_iff]
  split
  next d hd =>
    have hlong := List.find?_some hd
    have hlt : d < 16 := List.mem_range.1 (List.mem_of_find?_eq_some hd)
    rw [decide_eq_true_eq, hdigit ⟨d, hlt⟩] at hlong
    refine iff_of_false (by simp) ?_
    rintro ⟨-, -, -, -, -, -, -, -, hfont⟩
    exact absurd (hfont ⟨d, hlt⟩) (Nat.not_le.2 hlong)
  next hnone =>
    have hfont (d : Fin 16) :
        p.fontBase + d.val * p.fontStride + p.fontData[d.val].length ≤ p.memSize := by
      have hfits := List.find?_eq_none.1 hnone d.val (List.mem_range.2 d.isLt)
      rwa [decide_eq_true_eq, Nat.not_lt, hdigit] at hfits
    constructor
    · rintro ⟨hw, hh, hm, hi, hf, ht, hs, -⟩
      exact ⟨by omega, by omega, by omega, by omega, by omega, by omega, by omega, hs, hfont⟩
    · rintro ⟨hw, hh, hm, hm', hi, hf, ht, hs, -⟩
      exact ⟨by omega, by omega, by omega, by omega, by omega, by omega, hs, rfl⟩

namespace Machine

/-- Settles O47: the reset contents in the font region, and the stride as the longest digit. -/
theorem fontIsCopiedAtReset : Obligations.FontIsCopiedAtReset := by
  unfold Obligations.FontIsCopiedAtReset
  exact fun p d => ⟨fun j hj => p.resetByte_font d hj, p.length_le_fontStride d,
    p.exists_length_eq_fontStride⟩

/-- Settles O48: the checks in their order, and a construction that fails one. -/
theorem constructionChecksItsParameters : Obligations.ConstructionChecksItsParameters := by
  unfold Obligations.ConstructionChecksItsParameters
  refine fun p => ⟨p.check_eq_none_iff, fun s rest r hin hr => ?_⟩
  rw [step_cons hin]
  simp only [handle, construct, hr]

/-- Settles O46: the constructed state, with the events to come and the draw counter kept. -/
theorem resetProducesTheResetState : Obligations.ResetProducesTheResetState := by
  unfold Obligations.ResetProducesTheResetState
  intro s rest p hin hp
  have hstep : step s = .next { State.construct p with inputs := rest, draws := s.draws } := by
    rw [step_cons hin]
    simp only [handle, construct, hp]
  refine ⟨_, hstep, rfl, rfl, clearedFrame_fits p, State.pixel_of_cleared rfl,
    fun r => ?_, rfl, rfl, rfl, rfl, fun k => ?_, rfl, rfl, rfl,
    fun a ha => p.resetByte_outside ha, fun d j hj => p.resetByte_font d hj, rfl, rfl⟩
  · exact Vector.getElem_replicate r.isLt
  · exact Vector.getElem_replicate k.isLt

end Machine

end Sys2Proof
end

section
/-! PROOFS. The sprite (45_ixyn_draw.md R162, R166): a draw is a sequence of toggles, one for each
place a 1 bit lands on. Where no place comes twice, the order of the toggles does not matter. -/

namespace Sys2Proof.Machine

/-! ### Toggling a list of places -/

/-- One pixel toggled, with the collision signal carried on. -/
def toggleAt (acc : Frame × Bool) (uv : Nat × Nat) : Frame × Bool :=
  (acc.1.toggle uv.1 uv.2, acc.2 || acc.1.pixel uv.1 uv.2)

section

variable {p : Params} {l : List (Nat × Nat)}

/-- Toggling places of the grid, none twice: each is flipped once, and the signal is whether one was
on. -/
theorem foldl_toggleAt (hin : ∀ uv ∈ l, uv.1 < p.fbWidth ∧ uv.2 < p.fbHeight) (hd : l.Nodup)
    (acc : Frame × Bool) (hf : gridFits p acc.1) :
    (∀ x y, (l.foldl toggleAt acc).1.pixel x y = (acc.1.pixel x y != decide ((x, y) ∈ l))) ∧
    (l.foldl toggleAt acc).2 = (acc.2 || l.any fun uv => acc.1.pixel uv.1 uv.2) := by
  induction l generalizing acc with
  | nil => simp
  | cons uv l ih =>
    obtain ⟨u, v⟩ := uv
    rw [List.forall_mem_cons] at hin
    obtain ⟨⟨hu, hv⟩, hin⟩ := hin
    rw [List.nodup_cons] at hd
    obtain ⟨hnot, hd⟩ := hd
    obtain ⟨hpix, hflag⟩ := ih hin hd (toggleAt acc (u, v)) (Frame.toggle_fits hf)
    have hone (x y : Nat) : (toggleAt acc (u, v)).1.pixel x y =
        (acc.1.pixel x y != decide (x = u ∧ y = v)) := Frame.toggle_pixel hf hu hv
    refine ⟨fun x y => ?_, ?_⟩
    · rw [List.foldl_cons, hpix, hone]
      by_cases h : x = u ∧ y = v
      · obtain ⟨rfl, rfl⟩ := h
        simp [hnot]
      · simp [h]
    · have hany : (l.any fun uv => (toggleAt acc (u, v)).1.pixel uv.1 uv.2) =
          l.any fun uv => acc.1.pixel uv.1 uv.2 := by
        rw [Bool.eq_iff_iff, List.any_eq_true, List.any_eq_true]
        refine exists_congr fun uv => and_congr_right fun huv => ?_
        have hne : ¬ (uv.1 = u ∧ uv.2 = v) := by
          rintro ⟨rfl, rfl⟩
          exact hnot huv
        rw [hone, decide_eq_false hne, Bool.bne_false]
      rw [List.foldl_cons, hflag, hany, List.any_cons, ← Bool.or_assoc]
      rfl

end

/-! ### Where a sprite lands -/

section

variable (p : Params) (x0 : Nat)

/-- The place that column `c` of a sprite row with byte `b` lands on, if its bit is 1 and on the
screen. -/
def landing (py : Nat) (b : Byte) (c : Nat) : Option (Nat × Nat) :=
  if b.getLsbD (7 - c) then normCoord p (x0 + c) py else none

/-- The places that the rows of a sprite land on, the first row at row `py`, in the order of the
draw. -/
def landings (py : Nat) : List Byte → List (Nat × Nat)
  | [] => []
  | b :: bs => (List.range 8).filterMap (landing p x0 py b) ++ landings (py + 1) bs

variable {p x0}

theorem drawColumn_eq (py : Nat) (b : Byte) (acc : Frame × Bool) (c : Nat) :
    drawColumn p x0 py b acc c = (landing p x0 py b c).elim acc (toggleAt acc) := by
  unfold drawColumn landing
  obtain ⟨hnone, e⟩ | ⟨u, v, hb, hn, e⟩ :=
    xorPixel_cases p acc.1 (x0 + c) py (b.getLsbD (7 - c))
  · rw [e]
    obtain hb | hn := hnone
    · simp [hb]
    · simp [hn]
  · rw [e, hb, if_pos rfl, hn]
    rfl

theorem drawRow_eq (py : Nat) (b : Byte) (acc : Frame × Bool) :
    drawRow p x0 py b acc = ((List.range 8).filterMap (landing p x0 py b)).foldl toggleAt acc := by
  rw [drawRow, List.foldl_filterMap]
  congr
  funext acc c
  rw [drawColumn_eq]
  cases landing p x0 py b c <;> rfl

theorem drawRows_eq (py : Nat) (rows : List Byte) (acc : Frame × Bool) :
    drawRows p x0 py rows acc = (landings p x0 py rows).foldl toggleAt acc := by
  induction rows generalizing py acc with
  | nil => rfl
  | cons b bs ih => rw [drawRows, ih, drawRow_eq, landings, List.foldl_append]

/-- A draw toggles the places the sprite lands on. -/
theorem drawSprite_eq (fb : Frame) (y0 : Nat) (rows : List Byte) :
    drawSprite p fb x0 y0 rows = (landings p x0 y0 rows).foldl toggleAt (fb, false) :=
  drawRows_eq y0 rows (fb, false)

theorem landing_eq_some_iff {py c : Nat} {b : Byte} {uv : Nat × Nat} :
    landing p x0 py b c = some uv ↔
      b.getLsbD (7 - c) = true ∧ normCoord p (x0 + c) py = some uv := by
  simp [landing]

theorem mem_rowLandings {py : Nat} {b : Byte} {uv : Nat × Nat} :
    uv ∈ (List.range 8).filterMap (landing p x0 py b) ↔
      ∃ c, c < 8 ∧ b.getLsbD (7 - c) = true ∧ normCoord p (x0 + c) py = some uv := by
  simp only [List.mem_filterMap, List.mem_range, landing_eq_some_iff]

theorem mem_landings {y0 : Nat} {rows : List Byte} {uv : Nat × Nat} :
    uv ∈ landings p x0 y0 rows ↔ ∃ r, r < rows.length ∧ ∃ c, c < 8 ∧ spriteBit rows r c = true ∧
      normCoord p (x0 + c) (y0 + r) = some uv := by
  induction rows generalizing y0 with
  | nil => simp [landings]
  | cons b bs ih =>
    rw [landings, List.mem_append, mem_rowLandings, ih]
    constructor
    · rintro (hrow | ⟨r, hr, hrest⟩)
      · exact ⟨0, Nat.succ_pos _, hrow⟩
      · rw [Nat.add_right_comm] at hrest
        exact ⟨r + 1, Nat.succ_lt_succ hr, hrest⟩
    · rintro ⟨_ | r, hr, hrest⟩
      · exact .inl hrest
      · refine .inr ⟨r, Nat.lt_of_succ_lt_succ hr, ?_⟩
        rw [Nat.add_right_comm]
        exact hrest

/-- The places of the list are those of the specification's `spriteLands`. -/
theorem spriteLands_iff {y0 : Nat} {rows : List Byte} {u v : Nat} :
    spriteLands p x0 y0 rows u v = true ↔ (u, v) ∈ landings p x0 y0 rows := by
  simp only [spriteLands, List.any_eq_true, List.mem_range, Bool.and_eq_true, beq_iff_eq,
    mem_landings]

/-- Offsets below the modulus with equal remainders are equal. -/
theorem eq_of_add_mod_eq {x m a b : Nat} (ha : a < m) (hb : b < m)
    (h : (x + a) % m = (x + b) % m) : a = b :=
  Nat.ModEq.eq_of_lt_of_lt (Nat.ModEq.add_left_cancel' x h) ha hb

/-- Two pixels of a sprite that share a place are one pixel (R166 (b)). -/
theorem normCoord_inj {height y0 c c' r r' : Nat} {uv : Nat × Nat} (h : noOverlap p height)
    (hc : c < 8) (hc' : c' < 8) (hr : r < height) (hr' : r' < height)
    (e : normCoord p (x0 + c) (y0 + r) = some uv) (e' : normCoord p (x0 + c') (y0 + r') = some uv) :
    c = c' ∧ r = r' := by
  obtain ⟨u, v⟩ := uv
  rw [normCoord_eq_some_iff] at e e'
  obtain ⟨hw, rfl, rfl⟩ | ⟨hw, -, -, rfl, rfl⟩ := e
  · obtain ⟨-, hu, hv⟩ | ⟨hw', -⟩ := e'
    · obtain hnw | ⟨h8, hh⟩ := h
      · simp [hw] at hnw
      · exact ⟨eq_of_add_mod_eq (by omega) (by omega) hu, eq_of_add_mod_eq (by omega) (by omega) hv⟩
    · simp [hw] at hw'
  · obtain ⟨hw', -⟩ | ⟨-, -, -, hu, hv⟩ := e'
    · simp [hw] at hw'
    · omega

theorem rowLandings_nodup {py : Nat} {b : Byte} (h : noOverlap p 1) :
    ((List.range 8).filterMap (landing p x0 py b)).Nodup := by
  rw [List.Nodup, List.pairwise_filterMap]
  refine List.pairwise_lt_range.imp_of_mem fun {c c'} hc hc' hlt uv e uv' e' => ?_
  rintro rfl
  rw [landing_eq_some_iff] at e e'
  have hcc := normCoord_inj (y0 := py) (r := 0) (r' := 0) h (List.mem_range.1 hc)
    (List.mem_range.1 hc') Nat.one_pos Nat.one_pos e.2 e'.2
  omega

/-- Where no two pixels share a place, no place comes twice. -/
theorem landings_nodup {y0 : Nat} {rows : List Byte} (h : noOverlap p rows.length) :
    (landings p x0 y0 rows).Nodup := by
  induction rows generalizing y0 with
  | nil => exact List.nodup_nil
  | cons b bs ih =>
    rw [List.length_cons] at h
    have hsub {n : Nat} (hn : n ≤ bs.length + 1) : noOverlap p n :=
      h.imp_right fun ⟨h8, hh⟩ => ⟨h8, hn.trans hh⟩
    rw [landings, List.nodup_append]
    refine ⟨rowLandings_nodup (hsub (by omega)), ih (hsub (by omega)), fun uv hrow uv' hrest => ?_⟩
    rintro rfl
    obtain ⟨c, hc, -, e⟩ := mem_rowLandings.1 hrow
    obtain ⟨r, hr, c', hc', -, e'⟩ := mem_landings.1 hrest
    rw [Nat.add_assoc] at e'
    have hrr := normCoord_inj (y0 := y0) (r := 0) h hc hc' (Nat.succ_pos _) (by omega) e e'
    omega

theorem landings_inside {y0 : Nat} {rows : List Byte} (hw : 0 < p.fbWidth) (hh : 0 < p.fbHeight) :
    ∀ uv ∈ landings p x0 y0 rows, uv.1 < p.fbWidth ∧ uv.2 < p.fbHeight := by
  intro uv huv
  obtain ⟨r, -, c, -, -, e⟩ := mem_landings.1 huv
  exact normCoord_lt hw hh e

end

/-! ### What a draw does -/

/-- Settles O34: the draw toggles each place it lands on once. -/
theorem spriteTogglesWhatItLandsOn : Obligations.SpriteTogglesWhatItLandsOn := by
  unfold Obligations.SpriteTogglesWhatItLandsOn
  intro p fb x0 y0 rows hw hh hf hno u v _ _
  obtain ⟨hpix, -⟩ := foldl_toggleAt (landings_inside hw hh) (landings_nodup hno) (fb, false) hf
  rw [drawSprite_eq, hpix]
  congr 1
  rw [Bool.eq_iff_iff, decide_eq_true_iff, spriteLands_iff]

/-- Settles O35: the signal is whether one of the places was on. -/
theorem collisionIffALitPixelIsHit : Obligations.CollisionIffALitPixelIsHit := by
  unfold Obligations.CollisionIffALitPixelIsHit
  intro p fb x0 y0 rows hw hh hf hno
  have hin := landings_inside (p := p) (x0 := x0) (y0 := y0) (rows := rows) hw hh
  obtain ⟨-, hflag⟩ := foldl_toggleAt hin (landings_nodup hno) (fb, false) hf
  rw [drawSprite_eq, hflag, Bool.false_or, List.any_eq_true]
  constructor
  · rintro ⟨⟨u, v⟩, huv, hon⟩
    exact ⟨u, v, (hin _ huv).1, (hin _ huv).2, hon, spriteLands_iff.2 huv⟩
  · rintro ⟨u, v, -, -, hon, huv⟩
    exact ⟨(u, v), spriteLands_iff.1 huv, hon⟩

/-- Settles O36: two toggles of a pixel restore it, and the second draw finds the opposite of the
first. -/
theorem drawingTwiceRestores : Obligations.DrawingTwiceRestores := by
  unfold Obligations.DrawingTwiceRestores
  intro p fb x0 y0 rows hw hh hf hno
  have hf' : gridFits p (drawSprite p fb x0 y0 rows).1 := drawSprite_fits hf
  have honce := spriteTogglesWhatItLandsOn p fb x0 y0 rows hw hh hf hno
  have htwice := spriteTogglesWhatItLandsOn p _ x0 y0 rows hw hh hf' hno
  constructor
  · refine Frame.ext_of_fits (drawSprite_fits hf') hf fun u v hu hv => ?_
    rw [htwice u v hu hv, honce u v hu hv, Bool.bne_assoc, bne_self_eq_false, Bool.bne_false]
  · rw [collisionIffALitPixelIsHit p _ x0 y0 rows hw hh hf' hno]
    refine exists_congr fun u => exists_congr fun v =>
      and_congr_right fun hu => and_congr_right fun hv => ?_
    rw [honce u v hu hv]
    refine and_congr_left fun hlands => ?_
    rw [hlands]
    cases fb.pixel u v <;> decide

/-- A sprite with no 1 bit lands nowhere. -/
theorem landings_replicate_zero (p : Params) (x0 y0 height : Nat) :
    landings p x0 y0 (List.replicate height 0#8) = [] := by
  refine List.eq_nil_iff_forall_not_mem.2 fun uv huv => ?_
  obtain ⟨r, hr, c, -, hbit, -⟩ := mem_landings.1 huv
  rw [List.length_replicate] at hr
  simp [spriteBit, hr] at hbit

/-- Settles O37: there is no place to toggle. -/
theorem zeroSpriteDoesNothing : Obligations.ZeroSpriteDoesNothing := by
  unfold Obligations.ZeroSpriteDoesNothing
  intro p fb x0 y0 height
  rw [drawSprite_eq, landings_replicate_zero]
  rfl

end Sys2Proof.Machine
end
